-- ==== Sys2Proof/Word.lean ====
section
/-! DEFINITION. The word types of the register space and the 4-vectors and 4x4 blocks of 00_scope.md R13. -/

namespace Sys2Proof

/-- One 32-bit register or host variable (10_state.md R24). -/
abbrev Word := BitVec 32

/-- One byte of a platform's memory (20_memory.md R50). -/
abbrev Byte := BitVec 8

/-- A 4-vector, entries 0 to 3 (00_scope.md R13). -/
structure Vec4 (α : Type) where
  v0 : α
  v1 : α
  v2 : α
  v3 : α
  deriving DecidableEq, Repr

/-- A 4x4 block: the 4-vector of its rows (00_scope.md R13). -/
abbrev Blk (α : Type) := Vec4 (Vec4 α)

end Sys2Proof
end

