-- ==== Sys2Proof/Syntax.lean ====
section
/-! DEFINITION. The commands and micro-operations (one constructor per row of the opcode table) and the statements of
the host (30_encoding.md R87). -/

namespace Sys2Proof

/-- The vector one butterfly works on: column `c` of `P` in pass 1 (46_transform.md R222), row `r` of `T` in
pass 2 (R223). -/
inductive Lane where
  | column (c : Fin 4)
  | row (r : Fin 4)
  deriving DecidableEq, Repr

/-- The opcode table. `fdct4x4` and `reserved` are command words (30_encoding.md R83, R84). The others are the internal
micro-operations, which have no encoding (R86); their operands: log 13. -/
inductive Instr where
  /-- The command word 0x00000001. -/
  | fdct4x4
  /-- 41_load_scale.md R120. -/
  | loadScale
  /-- 41_load_scale.md R121. -/
  | dcNudge
  /-- 42_butterfly.md R140, on one lane. -/
  | bfly4 (lane : Lane)
  /-- 43_round_shift.md R160, on the accumulator t_k. -/
  | roundShift (k : Fin 4)
  /-- 40_arithmetic.md R102, on the butterfly output y_k, stored where the lane's pass stores it. -/
  | narrow (lane : Lane) (k : Fin 4)
  /-- 44_transpose.md R181. -/
  | transpose
  /-- 45_final_normalization.md R200. -/
  | finalNorm
  /-- Every other command word, which the constructor carries (30_encoding.md R84). -/
  | reserved (w : Word)
  deriving DecidableEq, Repr

/-- The named registers (10_state.md R24). -/
inductive Reg where
  | cmd
  | inBase
  | inStride
  | outBase
  | status
  | config
  deriving DecidableEq, Repr

/-- One action of the host (30_encoding.md R87). A register access carries its byte offset and its size in bytes, so
that the accesses 10_state.md R31 refuses can be written down. `mwC` and `mrS` are the platform's accesses of
10_state.md R36 (DESIGN CHOICE, log 7). Host variables and labels are numbers. -/
inductive HostStmt where
  /-- `wr <REG>, <value>` -/
  | wr (offset size : Nat) (value : Word)
  /-- `rd <dst>, <REG>` -/
  | rd (dst offset size : Nat)
  /-- `mw.s <addr>, <v>` -/
  | mwS (addr : Nat) (v : BitVec 16)
  /-- `mr.c <dst>, <addr>` -/
  | mrC (dst addr : Nat)
  /-- an agent's write of the coefficient element `addr` (20_memory.md R58 item 5): the low L bits of `v` -/
  | mwC (addr : Nat) (v : Word)
  /-- an agent's read of the sample element `addr` -/
  | mrS (dst addr : Nat)
  /-- `<label>:` -/
  | label (l : Nat)
  /-- `bnz <dst>, <mask>, <label>` -/
  | bnz (src : Nat) (mask : Word) (l : Nat)
  /-- `bz <dst>, <mask>, <label>` -/
  | bz (src : Nat) (mask : Word) (l : Nat)
  deriving DecidableEq, Repr

end Sys2Proof
end

