-- ==== Sys2Proof/WellFormed.lean ====
section
/-! DEFINITION. Well-formed commands and well-formed host programs, as checks that evaluate. -/

namespace Sys2Proof

/-- A `reserved` command carries a word that is not the defined one (30_encoding.md R83, R84); every other
constructor is well-formed whatever its operands. -/
def Instr.wellFormed : Instr → Bool
  | .fdct4x4 => true
  | .loadScale => true
  | .dcNudge => true
  | .bfly4 _ => true
  | .roundShift _ => true
  | .narrow _ _ => true
  | .transpose => true
  | .finalNorm => true
  | .reserved w => w != 1#32

/-- The commands: what a host can issue (30_encoding.md R83 to R86). -/
def Instr.isCommand : Instr → Bool
  | .fdct4x4 => true
  | .loadScale => false
  | .dcNudge => false
  | .bfly4 _ => false
  | .roundShift _ => false
  | .narrow _ _ => false
  | .transpose => false
  | .finalNorm => false
  | .reserved _ => true

/-- A register access that is defined: 32 bits wide, naturally aligned, at an offset from 0x00 to 0x1C
(10_state.md R31). -/
def regAccessDefined (offset size : Nat) : Bool :=
  size == 4 && offset % 4 == 0 && offset < 32

/-- The labels a program defines, in program order. -/
def labelsOf (prog : List HostStmt) : List Nat :=
  prog.filterMap fun st =>
    match st with
    | .label l => some l
    | _ => none

/-- One statement of a program: a register access is defined (10_state.md R31), a branch names a label of the program. -/
def HostStmt.wellFormed (prog : List HostStmt) : HostStmt → Bool
  | .wr offset size _ => regAccessDefined offset size
  | .rd _ offset size => regAccessDefined offset size
  | .mwS _ _ => true
  | .mrC _ _ => true
  | .mwC _ _ => true
  | .mrS _ _ => true
  | .label _ => true
  | .bnz _ _ l => (labelsOf prog).contains l
  | .bz _ _ l => (labelsOf prog).contains l

/-- A well-formed host program: every statement is, and no label stands twice. -/
def programWellFormed (prog : List HostStmt) : Bool :=
  prog.all (HostStmt.wellFormed prog) && decide (labelsOf prog).Nodup

end Sys2Proof
end

