-- ==== Sys2Proof/Decode.lean ====
section
/-! DEFINITION. The command decoder, then the encoder (30_encoding.md). -/

namespace Sys2Proof

/-- The decoder compares the whole 32-bit word to 0x00000001; every other word is reserved (30_encoding.md R83,
R84). The map has no hint, no no-op and no custom encodings. -/
def decode (w : Word) : Instr :=
  if w = 0x00000001#32 then .fdct4x4 else .reserved w

/-- What the decoder does not read as a command. -/
inductive DecodeReject where
  /-- The word is wider than one command word (30_encoding.md R80, R85). Safe. -/
  | notOneWord
  deriving DecidableEq, Repr

/-- Decoding of `nbits` bits: total, and rejecting by name what is not one command word. Bits above `nbits` are 0. -/
def decodeBits (nbits w : Nat) : Except DecodeReject Instr :=
  if w % 2 ^ nbits < 2 ^ 32 then .ok (decode (BitVec.ofNat 32 (w % 2 ^ nbits))) else .error .notOneWord

/-- The instruction the decoder reads from a row of the opcode table. The table has one word a row. -/
def decodeTableWord (nbits w : Nat) : Option Instr :=
  match decodeBits nbits w with
  | .ok i => some i
  | .error _ => none

/-- The command word of an instruction. The micro-operations have none (30_encoding.md R86). -/
def encode : Instr → Option Word
  | .fdct4x4 => some 0x00000001#32
  | .loadScale => none
  | .dcNudge => none
  | .bfly4 _ => none
  | .roundShift _ => none
  | .narrow _ _ => none
  | .transpose => none
  | .finalNorm => none
  | .reserved w => some w

/-- A command word from its two fields, RSV in bits 31:8 and OPC in bits 7:0 (30_encoding.md R80). -/
def commandWord (rsv : BitVec 24) (opc : BitVec 8) : Word := rsv ++ opc

/-- The byte offset of a named register (10_state.md R24). -/
def Reg.offset : Reg → Nat
  | .cmd => 0x00
  | .inBase => 0x04
  | .inStride => 0x08
  | .outBase => 0x0C
  | .status => 0x10
  | .config => 0x14

/-- `wr <REG>, <value>` (30_encoding.md R87). -/
def HostStmt.writeReg (r : Reg) (v : Word) : HostStmt := .wr r.offset 4 v

/-- `rd <dst>, <REG>` (30_encoding.md R87). -/
def HostStmt.readReg (dst : Nat) (r : Reg) : HostStmt := .rd dst r.offset 4

/-- The pseudo-instruction `fdct4x4 <out_base>, <in_base>, <in_stride>` (30_encoding.md R88). -/
def pseudoFdct4x4 (outBase inBase inStride : Word) : List HostStmt :=
  [.writeReg .inBase inBase, .writeReg .inStride inStride, .writeReg .outBase outBase, .writeReg .cmd 0x00000001#32]

/-- The pseudo-instruction `wait`, with the loop's label and its variable (30_encoding.md R88). -/
def pseudoWait (l t : Nat) : List HostStmt :=
  [.label l, .readReg t .status, .bnz t 0x1#32 l]

/-- The pseudo-instruction `check` (30_encoding.md R88). -/
def pseudoCheck (t : Nat) : List HostStmt := [.readReg t .status]

end Sys2Proof
end

