-- ==== Sys2Proof/Config.lean ====
section
/-! DEFINITION. The parameters of 00_scope.md R8, fixed when an instance is built, and the free values. -/

namespace Sys2Proof

/-- `L`, the native precision: 16 or 32 bits (00_scope.md R8). -/
inductive NativeWidth where
  | l16
  | l32
  deriving DecidableEq, Repr

/-- `W`, the width of a working value: 32 or 64 bits (00_scope.md R8). -/
inductive WorkingWidth where
  | w32
  | w64
  deriving DecidableEq, Repr

/-- NARROW_MODE (00_scope.md R8, 40_arithmetic.md R102). -/
inductive NarrowMode where
  | fault
  | wrap
  deriving DecidableEq, Repr

/-- BIT_DEPTH: 8, 10 or 12 (00_scope.md R8). -/
inductive BitDepth where
  | bd8
  | bd10
  | bd12
  deriving DecidableEq, Repr

/-- ELEMENT_BYTE_ORDER (00_scope.md R8, 20_memory.md R50). -/
inductive ByteOrder where
  | little
  | big
  deriving DecidableEq, Repr

/-- How the platform holds the two element spaces: as two separate spaces (20_memory.md R64), or both mapped
onto one byte memory, element `a` of `S` at `sampleByteBase + 2*a` and of `C` at `coefByteBase + (L/8)*a` (R51). -/
inductive Platform where
  | separate
  | shared (sampleByteBase coefByteBase : Nat)
  deriving DecidableEq, Repr

/-- The build parameters of one instance (00_scope.md R8). PRESCALE and the final normalization have one legal
value each and are constants of the datapath. Which values are legal: `Params.legal`. -/
structure Params where
  native : NativeWidth
  working : WorkingWidth
  radix : Nat
  c8 : Nat
  c16 : Nat
  c24 : Nat
  bitDepth : BitDepth
  narrowMode : NarrowMode
  addrBits : Nat
  sampleWords : Nat
  coefWords : Nat
  byteOrder : ByteOrder
  platform : Platform
  deriving DecidableEq, Repr

/-- The free values (the "draws" of 93_implementation_defined.md part 1): the n-th value drawn. It has no body,
so nothing can be proved of it. DESIGN CHOICE, log 5, safe. -/
opaque Config.freeValue : Nat → Int

end Sys2Proof
end

