-- ==== Sys2Proof/Machine/Params.lean ====
section
/-! DEFINITION. What the parameters mean: widths, legality, the two named configurations, CONFIG. -/

namespace Sys2Proof

/-- `L` in bits. -/
def NativeWidth.bits : NativeWidth → Nat
  | .l16 => 16
  | .l32 => 32

/-- `L/8`, the bytes of one coefficient element (20_memory.md R51). -/
def NativeWidth.bytes : NativeWidth → Nat
  | .l16 => 2
  | .l32 => 4

/-- `W` in bits. -/
def WorkingWidth.bits : WorkingWidth → Nat
  | .w32 => 32
  | .w64 => 64

/-- BIT_DEPTH as a number. -/
def BitDepth.bits : BitDepth → Nat
  | .bd8 => 8
  | .bd10 => 10
  | .bd12 => 12

/-- `L`. -/
def Params.nativeBits (p : Params) : Nat := p.native.bits

/-- `W`. -/
def Params.workingBits (p : Params) : Nat := p.working.bits

/-- The largest legal magnitude of a sample, 2^BIT_DEPTH - 1 (00_scope.md R8, 40_arithmetic.md R109). -/
def Params.sampleLimit (p : Params) : Nat := 2 ^ p.bitDepth.bits - 1

/-- The distance of two naturals. -/
def distance (a b : Nat) : Nat := (a - b) + (b - a)

/-- The constant-table identity with both relative errors within 1e-3 (40_arithmetic.md R106):
2*C16^2 and C8^2 + C24^2 against 2^(2R). -/
def Params.tableLegal (p : Params) : Bool :=
  decide (1000 * distance (2 * p.c16 ^ 2) (2 ^ (2 * p.radix)) ≤ 2 ^ (2 * p.radix)) &&
  decide (1000 * distance (p.c8 ^ 2 + p.c24 ^ 2) (2 ^ (2 * p.radix)) ≤ 2 ^ (2 * p.radix))

/-- A platform that maps the spaces onto one memory aligns its bases (20_memory.md R51). -/
def Params.basesAligned (p : Params) : Bool :=
  match p.platform with
  | .separate => true
  | .shared sb cb => sb % 2 == 0 && cb % p.native.bytes == 0

/-- Are the two spaces mapped onto one memory (20_memory.md R64)? -/
def Params.isShared (p : Params) : Bool :=
  match p.platform with
  | .separate => false
  | .shared _ _ => true

/-- The legal parameter tuples (00_scope.md R8). The widths, BIT_DEPTH, NARROW_MODE and the byte order are legal by
their types. -/
def Params.legal (p : Params) : Bool :=
  decide (2 ≤ p.radix) && decide (p.radix ≤ 30) &&
  decide (0 < p.c8) && decide (p.c8 < 2 ^ p.radix) &&
  decide (0 < p.c16) && decide (p.c16 < 2 ^ p.radix) &&
  decide (0 < p.c24) && decide (p.c24 < 2 ^ p.radix) &&
  p.tableLegal &&
  decide (1 ≤ p.addrBits) && decide (p.addrBits ≤ 32) &&
  decide (1 ≤ p.sampleWords) && decide (p.sampleWords ≤ 2 ^ p.addrBits) &&
  decide (1 ≤ p.coefWords) && decide (p.coefWords ≤ 2 ^ p.addrBits) &&
  p.basesAligned

/-- The default constant table (40_arithmetic.md R105). -/
def Params.defaultTable (p : Params) : Bool :=
  p.radix == 14 && p.c8 == 15137 && p.c16 == 11585 && p.c24 == 6270

/-- CFG_LBD (00_scope.md R9): L 16, W 32, BIT_DEPTH 8, the defaults of R8, and for the parameters R8 leaves OPEN the
platform of 95_test_vectors.md section 5 with separate spaces (DESIGN CHOICE, log 1). -/
def cfgLbd : Params where
  native := .l16
  working := .w32
  radix := 14
  c8 := 15137
  c16 := 11585
  c24 := 6270
  bitDepth := .bd8
  narrowMode := .fault
  addrBits := 32
  sampleWords := 256
  coefWords := 64
  byteOrder := .little
  platform := .separate

/-- CFG_HBD (00_scope.md R9): L 32, W 64, BIT_DEPTH 12, the rest as `cfgLbd`. -/
def cfgHbd : Params := { cfgLbd with native := .l32, working := .w64, bitDepth := .bd12 }

/-- CONFIG (10_state.md R30), from bit 31 down: VER = 7, reserved, AB, BD, reserved, RBITS, reserved, NM, HW, LW. -/
def configWord (p : Params) : Word :=
  7#8 ++ 0#2 ++ BitVec.ofNat 6 p.addrBits ++ BitVec.ofNat 4 p.bitDepth.bits ++ 0#3 ++ BitVec.ofNat 5 p.radix ++ 0#1 ++
    BitVec.ofBool (p.narrowMode == .wrap) ++ BitVec.ofBool (p.working == .w64) ++ BitVec.ofBool (p.native == .l32)

end Sys2Proof
end

