-- ==== Sys2Proof/Machine/State.lean ====
section
/-! DEFINITION. The state of the machine, the reasons it stops, and the state after reset. -/

namespace Sys2Proof.Machine

open Sys2Proof

/-- A byte memory: address and byte pairs, addresses strictly rising, no entry equal to `unlistedByte`
(`Memory.wf`). -/
abbrev Memory := List Host.Cell

/-- The fields of STATUS (10_state.md R29). The reserved bits have no storage. -/
structure Status where
  busy : Bool
  done : Bool
  err : Bool
  ecode : BitVec 4
  deriving DecidableEq, Repr

/-- The sequencer state (10_state.md R22). -/
inductive Seq where
  | idle
  | busy
  deriving DecidableEq, Repr

/-- The values of one butterfly (10_state.md R35, 42_butterfly.md R140): its inputs, the even/odd split `s0..s3`,
the even sums, the odd products, the accumulators `t0..t3` (of which t0 and t1 are the even products), and the
outputs `y` in frequency order. All are working values. -/
structure Butterfly where
  a : Vec4 Int
  s : Vec4 Int
  e0 : Int
  e1 : Int
  s2c24 : Int
  s3c8 : Int
  negS2 : Int
  negS2c8 : Int
  s3c24 : Int
  t : Vec4 Int
  y : Vec4 Int
  deriving DecidableEq, Repr

/-- The working storage of one operation (10_state.md R35). `P` holds working values; `I`, `T`, `Z` and `O` hold
values of native precision. The field names are the rule's, in lower case. -/
structure Work where
  p : Blk Int
  i : Blk Int
  t : Blk Int
  z : Blk Int
  o : Blk Int
  bf : Butterfly
  deriving DecidableEq, Repr

/-- The host's program (30_encoding.md R87), the place of its next statement, and its variables. -/
structure HostAgent where
  prog : List HostStmt
  pc : Nat
  vars : List (Nat × Word)
  deriving DecidableEq, Repr

/-- Which agent moves: the host, the block (10_state.md R20), or the platform's reset input (70_reset_and_hazards.md
R400). -/
inductive Turn where
  | host
  | block
  | reset
  deriving DecidableEq, Repr

/-- An operation that has ended and that the host has not seen DONE for (70_reset_and_hazards.md R405): its output base,
and the values it gave the elements from there up (none after E_ADDR, which writes nothing; log 10). -/
structure EndedOp where
  base : Nat
  values : List Int
  deriving DecidableEq, Repr

/-- The state. `params` is configuration, which no step writes (00_scope.md R8; log 1). -/
structure State where
  /-- the instance's parameters, the constant table among them (00_scope.md R8, 10_state.md R33) -/
  params : Params
  /-- IN_BASE (10_state.md R26) -/
  inBase : Word
  /-- IN_STRIDE (10_state.md R27) -/
  inStride : Word
  /-- OUT_BASE (10_state.md R28) -/
  outBase : Word
  /-- the operand latches (10_state.md R34) -/
  latInBase : Word
  latInStride : Word
  latOutBase : Word
  /-- STATUS (10_state.md R29) -/
  status : Status
  /-- SEQ (10_state.md R22) -/
  seq : Seq
  /-- working storage (10_state.md R35) -/
  work : Work
  /-- the memory that holds the sample space, and the coefficient space too if the platform maps both onto it
  (10_state.md R36, 20_memory.md R64; log 4) -/
  smem : Memory
  /-- the memory that holds the coefficient space of a platform with separate spaces (10_state.md R36; log 4) -/
  cmem : Memory
  /-- the contents `smem` had since the running operation was accepted, latest first (20_memory.md R58 item 5; log 9) -/
  hist : List Memory
  /-- the bytes that agents wrote to the coefficient store since the running operation was accepted, latest first
  (20_memory.md R58 item 5; log 9) -/
  raced : List Host.Cell
  /-- the operations that have ended since the host last read DONE = 1, latest first
  (70_reset_and_hazards.md R405; log 10) -/
  unseen : List EndedOp
  /-- how many free values have been drawn: the model's own (log 5) -/
  draws : Nat
  /-- the host (30_encoding.md R87) -/
  host : HostAgent
  /-- which agent moves next: the model's own (log 6) -/
  agenda : List Turn
  deriving DecidableEq, Repr

/-- Why the machine stops with a fault. The block's own errors are no faults: they are next states
(60_exceptions.md R306). -/
inductive Fault where
  /-- Raised by a host access (`mw.s`, `mr.c` and the platform's two) to an element address its space does not have
  (10_state.md R36). Safe: the spec gives such a host access no result. -/
  | noSuchElement
  deriving DecidableEq, Repr

/-- Why the machine gives a step no meaning. -/
inductive Refusal where
  /-- An instruction that has no meaning in this model. Safe. No arm uses it. -/
  | notModelled (mnemonic : String)
  /-- Raised by a host register access that is not an aligned 32-bit access to offsets 0x00 to 0x1C (10_state.md R31:
  "refused: a model gives it no meaning"). Safe. -/
  | registerAccess
  /-- Raised by FDCT4X4 when its sample and coefficient windows overlap in one memory (20_memory.md R64: "A model
  refuses such a launch"). Safe. -/
  | windowsOverlap
  /-- Raised by a micro-operation outside an operation (30_encoding.md R86, 10_state.md R20). Safe. -/
  | noOperation
  /-- Raised by a host branch to a label its program does not define (30_encoding.md R87). Safe. -/
  | noSuchLabel
  deriving DecidableEq, Repr

/-- A 4-vector of zeros, and a block of zeros. -/
def zeroVec : Vec4 Int := ⟨0, 0, 0, 0⟩
def zeroBlk : Blk Int := ⟨zeroVec, zeroVec, zeroVec, zeroVec⟩

/-- Working storage of zeros (DESIGN CHOICE, log 2: R40 leaves it unspecified). -/
def zeroWork : Work where
  p := zeroBlk
  i := zeroBlk
  t := zeroBlk
  z := zeroBlk
  o := zeroBlk
  bf := ⟨zeroVec, zeroVec, 0, 0, 0, 0, 0, 0, 0, zeroVec, zeroVec⟩

/-- STATUS = 0x00000000 (10_state.md R40). -/
def Status.zero : Status := ⟨false, false, false, 0#4⟩

/-- The machine right after reset (10_state.md R40). STATUS is 0 and SEQ is IDLE; the registers, latches and working
storage, unspecified there, are 0 (DESIGN CHOICE, log 2); the memories, which the block does not reset, list nothing
(log 3); the host has no program (log 6). -/
def State.reset : State where
  params := cfgLbd
  inBase := 0#32
  inStride := 0#32
  outBase := 0#32
  latInBase := 0#32
  latInStride := 0#32
  latOutBase := 0#32
  status := .zero
  seq := .idle
  work := zeroWork
  smem := []
  cmem := []
  hist := []
  raced := []
  unseen := []
  draws := 0
  host := ⟨[], 0, []⟩
  agenda := []

end Sys2Proof.Machine
end

