-- ==== Sys2Proof/Machine/Flags.lean ====
section
/-! DEFINITION. STATUS: the word a host reads, and the values the three events write (10_state.md R25, R29). There are
no arithmetic flags (R23). -/

namespace Sys2Proof.Machine

open Sys2Proof

/-- The errors (60_exceptions.md R300). -/
inductive ErrCode where
  | badCmd
  | addr
  | ovf
  deriving DecidableEq, Repr

/-- ECODE of an error (60_exceptions.md R300). -/
def ErrCode.code : ErrCode → BitVec 4
  | .badCmd => 1#4
  | .addr => 2#4
  | .ovf => 3#4

/-- STATUS as a word: reserved, ECODE in 7:4, reserved, ERR, DONE, BUSY (10_state.md R29). -/
def Status.word (st : Status) : Word :=
  0#24 ++ st.ecode ++ 0#1 ++ BitVec.ofBool st.err ++ BitVec.ofBool st.done ++ BitVec.ofBool st.busy

/-- STATUS after acceptance of FDCT4X4 (10_state.md R25). -/
def Status.accepted : Status := ⟨true, false, false, 0#4⟩

/-- STATUS after completion or rejection with a code; 0 is success (46_transform.md R221 FINISH, 10_state.md R25). -/
def Status.completed (code : BitVec 4) : Status := ⟨false, true, code != 0#4, code⟩

/-- The fields STATUS hardwires to agree (10_state.md R29), and no reserved code (60_exceptions.md R300). -/
def Status.agrees (st : Status) : Bool :=
  (!st.busy || (!st.done && !st.err && st.ecode == 0#4)) && (st.err == (st.ecode != 0#4)) && st.ecode.toNat ≤ 3

end Sys2Proof.Machine
end

