-- ==== Sys2Proof/Machine/Matrix.lean ====
section
/-! DEFINITION. Entries of 4-vectors and 4x4 blocks (00_scope.md R13). -/

namespace Sys2Proof

/-- Entry `k` of a 4-vector. -/
def Vec4.get {α : Type} (v : Vec4 α) : Fin 4 → α
  | 0 => v.v0
  | 1 => v.v1
  | 2 => v.v2
  | 3 => v.v3

/-- `v` with entry `k` replaced. -/
def Vec4.set {α : Type} (v : Vec4 α) (k : Fin 4) (x : α) : Vec4 α :=
  match k with
  | 0 => { v with v0 := x }
  | 1 => { v with v1 := x }
  | 2 => { v with v2 := x }
  | 3 => { v with v3 := x }

/-- The 4-vector whose entry `k` is `f k`. -/
def Vec4.ofFn {α : Type} (f : Fin 4 → α) : Vec4 α := ⟨f 0, f 1, f 2, f 3⟩

/-- A function on every entry. -/
def Vec4.map {α β : Type} (f : α → β) (v : Vec4 α) : Vec4 β := ⟨f v.v0, f v.v1, f v.v2, f v.v3⟩

/-- A function that may fail, on every entry; it fails if one fails. -/
def Vec4.mapO {α β : Type} (f : α → Option β) (v : Vec4 α) : Option (Vec4 β) :=
  match f v.v0, f v.v1, f v.v2, f v.v3 with
  | some a, some b, some c, some d => some ⟨a, b, c, d⟩
  | _, _, _, _ => none

/-- Does every entry meet the check? -/
def Vec4.all {α : Type} (f : α → Bool) (v : Vec4 α) : Bool := f v.v0 && f v.v1 && f v.v2 && f v.v3

/-- Does some entry meet the check? -/
def Vec4.any {α : Type} (f : α → Bool) (v : Vec4 α) : Bool := f v.v0 || f v.v1 || f v.v2 || f v.v3

/-- The entries in order. -/
def Vec4.toList {α : Type} (v : Vec4 α) : List α := [v.v0, v.v1, v.v2, v.v3]

/-- Entry `(r, c)`: row r, column c. -/
def Blk.at {α : Type} (m : Blk α) (r c : Fin 4) : α := (m.get r).get c

/-- The block whose entry `(r, c)` is `f r c`. -/
def Blk.ofFn {α : Type} (f : Fin 4 → Fin 4 → α) : Blk α := Vec4.ofFn fun r => Vec4.ofFn fun c => f r c

/-- `m` with entry `(r, c)` replaced. -/
def Blk.put {α : Type} (m : Blk α) (r c : Fin 4) (x : α) : Blk α := m.set r ((m.get r).set c x)

/-- A function on every entry. -/
def Blk.map {α β : Type} (f : α → β) (m : Blk α) : Blk β := Vec4.map (Vec4.map f) m

/-- A function that may fail, on every entry. -/
def Blk.mapO {α β : Type} (f : α → Option β) (m : Blk α) : Option (Blk β) := Vec4.mapO (Vec4.mapO f) m

/-- Does every entry meet the check? -/
def Blk.all {α : Type} (f : α → Bool) (m : Blk α) : Bool := Vec4.all (Vec4.all f) m

/-- Does some entry meet the check? -/
def Blk.any {α : Type} (f : α → Bool) (m : Blk α) : Bool := Vec4.any (Vec4.any f) m

/-- Row `r`. -/
def Blk.row {α : Type} (m : Blk α) (r : Fin 4) : Vec4 α := m.get r

/-- Column `c`, from row 0 down. -/
def Blk.col {α : Type} (m : Blk α) (c : Fin 4) : Vec4 α := Vec4.map (fun row => row.get c) m

/-- The transpose, `M^T[r][c] = M[c][r]` (00_scope.md R13, 44_transpose.md R181). -/
def Blk.transposed {α : Type} (m : Blk α) : Blk α := Blk.ofFn fun r c => m.at c r

/-- The 16 entries in row-major order, flat index `4*r + c` (00_scope.md R13). -/
def Blk.flat {α : Type} (m : Blk α) : List α := m.v0.toList ++ m.v1.toList ++ m.v2.toList ++ m.v3.toList

end Sys2Proof
end

