-- ==== Sys2Proof/Machine/Arithmetic.lean ====
section
/-! DEFINITION. The integer datapath: width primitives (00_scope.md R11, R12), checkW, NARROW, ROUND_SHIFT, the
butterfly, the final normalization, as functions of integers. `none` is a failing check, that is, E_OVF. -/

namespace Sys2Proof

/-- `2^n` as an integer: `1 << n` (00_scope.md R12). -/
def pow2 (n : Nat) : Int := ((2 ^ n : Nat) : Int)

/-- `fits_N(v)` (00_scope.md R11). -/
abbrev fits (n : Nat) (v : Int) : Prop := -(pow2 (n - 1)) ≤ v ∧ v ≤ pow2 (n - 1) - 1

/-- `wrap_N(v)`: the integer that fits N bits and is congruent to `v` modulo `2^N` (00_scope.md R11). -/
def wrap (n : Nat) (v : Int) : Int := Int.bmod v (2 ^ n)

/-- `sext_N(b)`: the pattern `b` read as a two's-complement integer (00_scope.md R11). -/
def sext (n : Nat) (b : Nat) : Int := wrap n (b : Int)

/-- `v >> n` = floor(v / 2^n), also for negative `v` (00_scope.md R12, 40_arithmetic.md R103). -/
def asr (v : Int) (n : Nat) : Int := v / pow2 n

/-- PRESCALE, 16 only (00_scope.md R8). -/
def prescale : Int := 16

/-- checkW: the value if it fits W bits, else E_OVF (40_arithmetic.md R101). -/
def checkW (p : Params) (v : Int) : Option Int :=
  if fits p.workingBits v then some v else none

/-- NARROW: the value if it fits L bits, else E_OVF or the wrapped value by NARROW_MODE (40_arithmetic.md R102). -/
def narrow (p : Params) (v : Int) : Option Int :=
  if fits p.nativeBits v then some v
  else match p.narrowMode with
    | .fault => none
    | .wrap => some (wrap p.nativeBits v)

/-- ROUND_SHIFT (43_round_shift.md R160): the rounding sum is checked, then shifted by the radix. -/
def roundShift (p : Params) (v : Int) : Option Int :=
  match checkW p (v + pow2 (p.radix - 1)) with
  | some u => some (asr u p.radix)
  | none => none

/-- The place of accumulator t_k in the output: `[t0, t2, t1, t3]` (42_butterfly.md R141). -/
def outPlace : Fin 4 → Fin 4
  | 0 => 0
  | 1 => 2
  | 2 => 1
  | 3 => 3

/-- The pre-scaled sample, checked (41_load_scale.md R120). -/
def scaleSample (p : Params) (x : Int) : Option Int := checkW p (prescale * x)

/-- LOAD_SCALE on the 16 samples that were read (41_load_scale.md R120). -/
def scaleBlock (p : Params) (x : Blk Int) : Option (Blk Int) := Blk.mapO (scaleSample p) x

/-- DC_NUDGE: +1 at row 0, column 0 iff that value is not zero (41_load_scale.md R121). -/
def nudge (m : Blk Int) : Blk Int :=
  if m.v0.v0 ≠ 0 then Blk.put m 0 0 (m.v0.v0 + 1) else m

/-- `(v + 1) >> 2` (45_final_normalization.md R200). -/
def normalizeValue (v : Int) : Int := asr (v + 1) 2

/-- FINAL_NORM on all 16 values, each from itself (45_final_normalization.md R200, R201). -/
def finalNorm (z : Blk Int) : Blk Int := Blk.map normalizeValue z

end Sys2Proof
end

