-- ==== Sys2Proof/Machine/Operands.lean ====
section
/-! DEFINITION. Operands of FDCT4X4: assembly from the latches, effective addresses, the address check, the overlap
of the two windows, and the lane a butterfly works on. -/

namespace Sys2Proof.Machine

open Sys2Proof

/-- The bits of a register that ADDR_BITS implements: the reserved ones read 0 (10_state.md R26, R28). -/
def maskAddr (p : Params) (v : Word) : Word := BitVec.ofNat 32 (v.toNat % 2 ^ p.addrBits)

/-- The three operands, as integers (30_encoding.md R81). -/
structure Operands where
  inBase : Int
  stride : Int
  outBase : Nat
  deriving DecidableEq, Repr

/-- Operand assembly: zero extension of ADDR_BITS bits, sign extension of 32 (30_encoding.md R81). -/
def assemble (p : Params) (inBase inStride outBase : Word) : Operands where
  inBase := ((inBase.toNat % 2 ^ p.addrBits : Nat) : Int)
  stride := inStride.toInt
  outBase := outBase.toNat % 2 ^ p.addrBits

/-- The operands of the running operation, from the latches (10_state.md R34). -/
def State.operands (s : State) : Operands := assemble s.params s.latInBase s.latInStride s.latOutBase

/-- The operands the next accepted command would latch (10_state.md R25). -/
def State.nextOperands (s : State) : Operands :=
  assemble s.params (maskAddr s.params s.inBase) s.inStride (maskAddr s.params s.outBase)

/-- `sample_addr(r, c)`, an exact integer (30_encoding.md R82). -/
def Operands.sampleAddr (o : Operands) (r c : Fin 4) : Int := o.inBase + (r.val : Int) * o.stride + (c.val : Int)

/-- `coef_addr(i)` (30_encoding.md R82). -/
def Operands.coefAddr (o : Operands) (i : Nat) : Nat := o.outBase + i

/-- Is the address inside the sample space (10_state.md R36)? -/
def inSampleSpace (p : Params) (a : Int) : Bool := decide (0 ≤ a) && decide (a < (p.sampleWords : Int))

/-- ADDRESS_CHECK passes: all 16 sample addresses and the whole coefficient window exist (60_exceptions.md R302). -/
def Operands.addressOk (p : Params) (o : Operands) : Bool :=
  Blk.all (inSampleSpace p) (Blk.ofFn o.sampleAddr) && decide (o.outBase + 15 < p.coefWords)

/-- The byte address of sample element `a` (20_memory.md R51). -/
def sampleByteAddr (p : Params) (a : Nat) : Nat :=
  match p.platform with
  | .separate => 2 * a
  | .shared sb _ => sb + 2 * a

/-- The byte address of coefficient element `a` (20_memory.md R51). -/
def coefByteAddr (p : Params) (a : Nat) : Nat :=
  match p.platform with
  | .separate => p.native.bytes * a
  | .shared _ cb => cb + p.native.bytes * a

/-- Do the byte ranges of `n` bytes at `a` and `m` bytes at `b` meet? -/
def rangesMeet (a n b m : Nat) : Bool := decide (a < b + m) && decide (b < a + n)

/-- Does a sample element of the operation share a byte with its coefficient window (20_memory.md R64,
70_reset_and_hazards.md R406)? Never, with separate spaces. -/
def Operands.windowsOverlap (p : Params) (o : Operands) : Bool :=
  p.isShared &&
    Blk.any (fun a => rangesMeet (sampleByteAddr p a.toNat) 2 (coefByteAddr p o.outBase) (16 * p.native.bytes))
      (Blk.ofFn o.sampleAddr)

/-- The vector a butterfly works on: a column of `P` (46_transform.md R222) or a row of `T` (R223). -/
def Work.lane (w : Work) : Lane → Vec4 Int
  | .column c => Blk.col w.p c
  | .row r => Blk.row w.t r

/-- Output `k` of a lane's butterfly, stored where its pass stores it: `I[c][k]` (44_transpose.md R180) or
`Z[4*r + k]` (46_transform.md R223). -/
def Work.storeLane (w : Work) (lane : Lane) (k : Fin 4) (v : Int) : Work :=
  match lane with
  | .column c => { w with i := Blk.put w.i c k v }
  | .row r => { w with z := Blk.put w.z r k v }

end Sys2Proof.Machine
end

