-- ==== Sys2Proof/Machine/Ops.lean ====
section
/-! DEFINITION. The named operations over memory, registers and host variables; the free values; raising an error and
finishing an operation; the reset event. -/

namespace Sys2Proof.Machine

open Sys2Proof

/-! ### Tables: address and value pairs in one canonical form -/

/-- What the table holds at `a`; `d` where nothing is listed. -/
def Table.find {α : Type} (d : α) : List (Nat × α) → Nat → α
  | [], _ => d
  | (k, v) :: rest, a => if k = a then v else Table.find d rest a

/-- The table without the entry of `a`. -/
def Table.erase {α : Type} (m : List (Nat × α)) (a : Nat) : List (Nat × α) :=
  m.filter fun c => c.1 != a

/-- The table with `v` listed at `a`, in its place by address. -/
def Table.insert {α : Type} : List (Nat × α) → Nat → α → List (Nat × α)
  | [], a, v => [(a, v)]
  | (k, w) :: rest, a, v =>
    if a < k then (a, v) :: (k, w) :: rest
    else if a = k then (a, v) :: rest
    else (k, w) :: Table.insert rest a v

/-- A write, which lists nothing where the value is what an unlisted address reads as. -/
def Table.put {α : Type} [DecidableEq α] (d : α) (m : List (Nat × α)) (a : Nat) (v : α) : List (Nat × α) :=
  if v = d then Table.erase m a else Table.insert m a v

/-- The canonical form: addresses strictly rising, no entry equal to what an unlisted address reads as. -/
abbrev Table.wf {α : Type} (d : α) (m : List (Nat × α)) : Prop :=
  m.Pairwise (fun c c' => c.1 < c'.1) ∧ ∀ c ∈ m, c.2 ≠ d

/-! ### Byte memory -/

/-- What a byte that nothing has written reads as: 0 (DESIGN CHOICE, log 3, unsafe). -/
def unlistedByte : Byte := 0#8

/-- One byte of a memory. -/
def Memory.read (m : Memory) (a : Nat) : Byte := Table.find unlistedByte m a

/-- One byte written. -/
def Memory.write (m : Memory) (a : Nat) (b : Byte) : Memory := Table.put unlistedByte m a b

/-- The canonical form of a memory. -/
abbrev Memory.wf (m : Memory) : Prop := Table.wf unlistedByte m

/-- `n` bytes from address `a` up. -/
def Memory.load (m : Memory) (a : Nat) : Nat → List Byte
  | 0 => []
  | n + 1 => m.read a :: Memory.load m (a + 1) n

/-- Bytes stored from address `a` up. -/
def Memory.store (m : Memory) (a : Nat) : List Byte → Memory
  | [] => m
  | b :: rest => Memory.store (m.write a b) (a + 1) rest

/-- The low `n` bytes of a number, least significant first. -/
def bytesOf : Nat → Nat → List Byte
  | 0, _ => []
  | n + 1, v => BitVec.ofNat 8 v :: bytesOf n (v / 256)

/-- The number of bytes given least significant first. -/
def numberOf : List Byte → Nat
  | [] => 0
  | b :: rest => b.toNat + 256 * numberOf rest

/-- An element's bytes from its lowest address up, in ELEMENT_BYTE_ORDER (20_memory.md R50). -/
def elementBytes (order : ByteOrder) (n v : Nat) : List Byte :=
  match order with
  | .little => bytesOf n v
  | .big => (bytesOf n v).reverse

/-- The element whose bytes stand from its lowest address up, in ELEMENT_BYTE_ORDER (20_memory.md R50). -/
def bytesElement (order : ByteOrder) (bs : List Byte) : Nat :=
  match order with
  | .little => numberOf bs
  | .big => numberOf bs.reverse

/-- The n-bit two's-complement pattern of an integer, as a number. -/
def pattern (n : Nat) (v : Int) : Nat := (v % pow2 n).toNat

/-! ### The two element spaces -/

/-- The memory that holds the coefficient space (10_state.md R36, 20_memory.md R64). -/
def State.coefMem (s : State) : Memory :=
  match s.params.platform with
  | .separate => s.cmem
  | .shared _ _ => s.smem

/-- The state with that memory replaced. -/
def State.setCoefMem (s : State) (m : Memory) : State :=
  match s.params.platform with
  | .separate => { s with cmem := m }
  | .shared _ _ => { s with smem := m }

/-- MemRead(S, a, 16) in one content of the sample memory (00_scope.md R14). -/
def sampleIn (p : Params) (m : Memory) (a : Nat) : Int :=
  sext 16 (bytesElement p.byteOrder (m.load (sampleByteAddr p a) 2))

/-- The sample element `a`. -/
def State.sample (s : State) (a : Nat) : Int := sampleIn s.params s.smem a

/-- The coefficient element `a`. -/
def State.coef (s : State) (a : Nat) : Int :=
  sext s.params.nativeBits
    (bytesElement s.params.byteOrder (s.coefMem.load (coefByteAddr s.params a) s.params.native.bytes))

/-- The bytes of a coefficient element of value `v`. -/
def coefBytes (p : Params) (v : Int) : List Byte :=
  elementBytes p.byteOrder p.native.bytes (pattern p.nativeBits v)

/-- MemWrite(C, a, L, v) (00_scope.md R14). -/
def State.writeCoef (s : State) (a : Nat) (v : Int) : State :=
  s.setCoefMem (s.coefMem.store (coefByteAddr s.params a) (coefBytes s.params v))

/-- Coefficient elements written from element `a` up. -/
def State.writeCoefs (s : State) (a : Nat) : List Int → State
  | [] => s
  | v :: rest => State.writeCoefs (s.writeCoef a v) (a + 1) rest

/-! ### Free values (log 5) -/

/-- A free choice among `k` alternatives, the n-th value drawn. -/
def freeChoice (n k : Nat) : Nat := (Config.freeValue n).toNat % k

/-- A free 32-bit word, the n-th value drawn. -/
def freeWord (n : Nat) : Word := BitVec.ofInt 32 (Config.freeValue n)

/-- A free value of `bits` bits, the n-th value drawn. -/
def freeSigned (bits n : Nat) : Int := wrap bits (Config.freeValue n)

/-- A block of free values. -/
def freeBlk (bits n : Nat) : Blk Int := Blk.ofFn fun r c => freeSigned bits (n + 4 * r.val + c.val)

/-- A 4-vector of free values. -/
def freeVec (bits n : Nat) : Vec4 Int := Vec4.ofFn fun k => freeSigned bits (n + k.val)

/-- Working storage of free values, each of its width (10_state.md R35, R40). One takes
103 of them. -/
def freeWork (p : Params) (n : Nat) : Work where
  p := freeBlk p.workingBits n
  i := freeBlk p.nativeBits (n + 16)
  t := freeBlk p.nativeBits (n + 32)
  z := freeBlk p.nativeBits (n + 48)
  o := freeBlk p.nativeBits (n + 64)
  bf :=
    { a := freeVec p.workingBits (n + 80)
      s := freeVec p.workingBits (n + 84)
      e0 := freeSigned p.workingBits (n + 88)
      e1 := freeSigned p.workingBits (n + 89)
      s2c24 := freeSigned p.workingBits (n + 90)
      s3c8 := freeSigned p.workingBits (n + 91)
      negS2 := freeSigned p.workingBits (n + 92)
      negS2c8 := freeSigned p.workingBits (n + 93)
      s3c24 := freeSigned p.workingBits (n + 94)
      t := freeVec p.workingBits (n + 95)
      y := freeVec p.workingBits (n + 99) }

/-- Counts `k` free values as drawn. -/
def State.drawn (s : State) (k : Nat) : State := { s with draws := s.draws + k }

/-- Sixteen free L-bit values. -/
def State.freeCoefs (s : State) : List Int :=
  (List.range 16).map fun i => freeSigned s.params.nativeBits (s.draws + i)

/-- The operation's coefficient window takes any L-bit values, the elements of it that exist
(20_memory.md R53, 70_reset_and_hazards.md R400). -/
def State.freeWindow (s : State) : State :=
  (s.writeCoefs s.operands.outBase (s.freeCoefs.take (s.params.coefWords - s.operands.outBase))).drawn 16

/-! ### Finishing an operation and raising an error -/

/-- FINISH(code): STATUS and SEQ (46_transform.md R221). The races of the operation end, and it waits, with the values
it gave its window, for the host to read DONE = 1 (70_reset_and_hazards.md R405; log 10). Outside an operation the
working storage and the butterfly values hold any values (93_implementation_defined.md part 1 item 7), so they become
free values here: DESIGN CHOICE of the place, safe, log 2. -/
def State.finish (s : State) (code : BitVec 4) (values : List Int) : State :=
  { s with
    status := .completed code
    seq := .idle
    work := freeWork s.params s.draws
    hist := []
    raced := []
    unseen := { base := s.operands.outBase, values := values } :: s.unseen
    draws := s.draws + 103 }

/-- `raise E` (60_exceptions.md R306): the one entry into every error. E_BADCMD starts no operation and so only sets
STATUS (R301). E_ADDR finishes the operation with nothing written (R302). E_OVF leaves any values in the coefficient
window and finishes it (R303). No state is saved, no handler runs; there is no return operation (R307). -/
def State.raiseError (s : State) : ErrCode → State
  | .badCmd => { s with status := .completed ErrCode.badCmd.code }
  | .addr => s.finish ErrCode.addr.code []
  | .ovf => s.freeWindow.finish ErrCode.ovf.code s.freeCoefs

/-- A micro-operation runs only inside an operation (30_encoding.md R86, 10_state.md R20). -/
def inOperation (s : State) (k : Host.Outcome State Fault Refusal) : Host.Outcome State Fault Refusal :=
  match s.seq with
  | .busy => k
  | .idle => .refused .noOperation

/-- Goes on with `f` if the operation is still running: after an error nothing of it follows
(60_exceptions.md R306). -/
def andThen (o : Host.Outcome State Fault Refusal) (f : State → Host.Outcome State Fault Refusal) :
    Host.Outcome State Fault Refusal :=
  match o with
  | .next t =>
    match t.seq with
    | .busy => f t
    | .idle => .next t
  | .fault r => .fault r
  | .refused r => .refused r

/-- The steps of an operation in order, until it ends. -/
def runSteps : List (State → Host.Outcome State Fault Refusal) → State → Host.Outcome State Fault Refusal
  | [], s => .next s
  | f :: rest, s => andThen (f s) (runSteps rest)

/-! ### Registers -/

/-- Acceptance of FDCT4X4 (10_state.md R25): the operands are latched (R34), STATUS and SEQ become BUSY, and no race
of the new operation has happened yet. -/
def State.accept (s : State) : State :=
  { s with
    latInBase := maskAddr s.params s.inBase
    latInStride := s.inStride
    latOutBase := maskAddr s.params s.outBase
    status := .accepted
    seq := .busy
    hist := []
    raced := [] }

/-- A write of a register other than CMD (10_state.md R24, R26 to R31): the three operand registers take it, with
reserved bits ignored; a write of a read-only register or a reserved offset is ignored. -/
def State.writeReg (s : State) (offset : Nat) (v : Word) : State :=
  match offset with
  | 0x04 => { s with inBase := maskAddr s.params v }
  | 0x08 => { s with inStride := v }
  | 0x0C => { s with outBase := maskAddr s.params v }
  | _ => s

/-- What a read of the register block returns (10_state.md R24 to R31): CMD and reserved offsets read 0. -/
def State.readReg (s : State) (offset : Nat) : Word :=
  match offset with
  | 0x04 => maskAddr s.params s.inBase
  | 0x08 => s.inStride
  | 0x0C => maskAddr s.params s.outBase
  | 0x10 => s.status.word
  | 0x14 => configWord s.params
  | _ => 0#32

/-- A STATUS read that returns DONE = 1 publishes the results of the operations completed before it
(20_memory.md R58 item 4; log 10). No register changes (10_state.md R31). -/
def State.observe (s : State) (offset : Nat) : State :=
  if offset = 0x10 ∧ s.status.done = true then { s with unseen := [] } else s

/-! ### The host -/

/-- The host moves past its statement. -/
def State.hostNext (s : State) : State := { s with host := { s.host with pc := s.host.pc + 1 } }

/-- A host variable; one that nothing has written holds 0 (DESIGN CHOICE, log 12). -/
def State.hostVar (s : State) (x : Nat) : Word := Table.find 0#32 s.host.vars x

/-- A host variable written. -/
def State.setHostVar (s : State) (x : Nat) (v : Word) : State :=
  { s with host := { s.host with vars := Table.put 0#32 s.host.vars x v } }

/-- The place of a label in a program. -/
def labelPlace (l : Nat) : List HostStmt → Option Nat
  | [] => none
  | st :: rest => if st = .label l then some 0 else (labelPlace l rest).map (· + 1)

/-- The byte addresses of a range. -/
def byteRange (a n : Nat) : List Nat := (List.range n).map (a + ·)

/-- Do `n` bytes at `a` of the coefficient store meet the window of 16 elements at element `base`? The window is not cut
at COEF_MEM_WORDS: of an operation whose window leaves the space (E_ADDR), the places past it count too, where no
coefficient element exists, and on a shared platform a sample may lie there. DESIGN CHOICE, safe, log 10. -/
def meetsWindow (p : Params) (a n base : Nat) : Bool := rangesMeet a n (coefByteAddr p base) (16 * p.native.bytes)

/-- Does a host access of `n` bytes at `a`, in the coefficient space or (`coef` false) in the sample space, reach the
coefficient store? -/
def reachesCoefs (p : Params) (coef : Bool) : Bool := coef || p.isShared

/-- Does it reach the memory that holds the samples? -/
def reachesSamples (p : Params) (coef : Bool) : Bool := !coef || p.isShared

/-- Does a host access meet the window of an operation that has ended unseen (70_reset_and_hazards.md R405)? -/
def State.meetsUnseen (s : State) (coef : Bool) (a n : Nat) : Bool :=
  reachesCoefs s.params coef && s.unseen.any fun w => meetsWindow s.params a n w.base

/-- Does a host access meet the running operation's coefficient window (20_memory.md R58 item 5)? -/
def State.meetsRunning (s : State) (coef : Bool) (a n : Nat) : Bool :=
  reachesCoefs s.params coef && s.seq == .busy && meetsWindow s.params a n s.operands.outBase

/-- The bytes land in the memory. -/
def State.putBytes (s : State) (coef : Bool) (a : Nat) (bs : List Byte) : State :=
  if coef then s.setCoefMem (s.coefMem.store a bs) else { s with smem := s.smem.store a bs }

/-- While an operation runs, the sample memory is remembered as it is before a write that reaches it (20_memory.md R58
item 5; log 9). -/
def State.noteSamples (s : State) (coef : Bool) : State :=
  match s.seq with
  | .idle => s
  | .busy => { s with hist := if reachesSamples s.params coef then s.smem :: s.hist else s.hist }

/-- While an operation runs, the bytes an agent writes to the coefficient store are remembered (20_memory.md R58 item 5;
log 9). -/
def State.noteRaced (s : State) (coef : Bool) (a : Nat) (bs : List Byte) : State :=
  match s.seq with
  | .idle => s
  | .busy =>
    { s with raced := if reachesCoefs s.params coef then (byteRange a bs.length).zip bs ++ s.raced else s.raced }

/-- The value that the latest ended, unseen operation gave coefficient element `e` (70_reset_and_hazards.md R405). -/
def State.operationValue (s : State) (e : Nat) : Option Int :=
  s.unseen.findSome? fun w => if w.base ≤ e then w.values[e - w.base]? else none

/-- The coefficient elements of the unseen windows that `n` bytes at `a` meet. -/
def State.unseenElements (s : State) (a n : Nat) : List Nat :=
  (s.unseen.flatMap fun w => byteRange w.base 16).filter fun e =>
    rangesMeet a n (coefByteAddr s.params e) s.params.native.bytes

/-- The elements hold their operations' values again; an element without one stays. -/
def State.restore (s : State) : List Nat → State
  | [] => s
  | e :: rest =>
    match s.operationValue e with
    | some v => State.restore (s.writeCoef e v) rest
    | none => State.restore s rest

/-- An agent's write of element bytes lands; while an operation runs it is remembered, for the samples and for the
running operation's window (20_memory.md R58 item 5; log 9). -/
def State.land (s : State) (coef : Bool) (a : Nat) (bs : List Byte) : State :=
  ((s.noteSamples coef).noteRaced coef a bs).putBytes coef a bs

/-- An agent's write of element bytes. It lands, but in a window not yet seen DONE it may leave the operation's value
instead of its own, chosen freely (70_reset_and_hazards.md R405; log 10). -/
def State.hostStore (s : State) (coef : Bool) (a : Nat) (bs : List Byte) : State :=
  let t := s.land coef a bs
  if s.meetsUnseen coef a bs.length then
    if freeChoice s.draws 2 = 0 then t.drawn 1
    else ((t.noteSamples coef).restore (s.unseenElements a bs.length)).drawn 1
  else t

/-- The value of an agent's read of `bits` bits, `n` bytes: any value in the window of a running operation
(20_memory.md R58 item 5) or of one not yet seen DONE (70_reset_and_hazards.md R405), else what the memory holds. -/
def State.hostLoad (s : State) (coef : Bool) (a n bits : Nat) : Int :=
  if s.meetsRunning coef a n || s.meetsUnseen coef a n then freeSigned bits s.draws
  else sext bits (bytesElement s.params.byteOrder ((if coef then s.coefMem else s.smem).load a n))

/-- The host variable `dst` takes the value of a read, as a 32-bit word (log 12); one free value counts as drawn. -/
def State.hostTake (s : State) (dst : Nat) (v : Int) : State := (s.setHostVar dst (BitVec.ofInt 32 v)).drawn 1

/-! ### The block's own accesses during a race -/

/-- The block's read number `k` of sample element `a`: a value the element had while the operation ran, chosen
freely (20_memory.md R58 item 5, 70_reset_and_hazards.md R404). With no race, what the memory holds. -/
def State.blockSample (s : State) (k a : Nat) : Int :=
  match s.hist with
  | [] => s.sample a
  | m :: rest =>
    sampleIn s.params ((s.smem :: m :: rest).getD (freeChoice (s.draws + k) (rest.length + 2)) s.smem) a

/-- The 16 samples of the operation, X[r][c] (46_transform.md R221 item 2). -/
def State.window (s : State) : Blk Int :=
  Blk.ofFn fun r c => s.blockSample (4 * r.val + c.val) (s.operands.sampleAddr r c).toNat

/-- Did an agent write coefficient element `a` while the operation ran? -/
def State.coefRaced (s : State) (a : Nat) : Bool :=
  (byteRange (coefByteAddr s.params a) s.params.native.bytes).any fun x => (s.raced.lookup x).isSome

/-- Coefficient element `a` as the other writers of this operation's time left it: the latest byte written, and the
memory's where none was (20_memory.md R58 item 5; log 9). -/
def State.writerCoef (s : State) (a : Nat) : Int :=
  sext s.params.nativeBits (bytesElement s.params.byteOrder
    ((byteRange (coefByteAddr s.params a) s.params.native.bytes).map fun x => (s.raced.lookup x).getD (s.coefMem.read x)))

/-- What the commit leaves in window element `i`: the operation's value; if it was raced, that or the other
writer's, chosen freely (20_memory.md R58 item 5). -/
def State.commitValue (s : State) (i : Nat) (v : Int) : Int :=
  if s.coefRaced (s.operands.coefAddr i) && freeChoice (s.draws + i) 2 != 0 then s.writerCoef (s.operands.coefAddr i)
  else v

/-! ### Reset -/

/-- RESET(), the registers, latches and working storage (70_reset_and_hazards.md R400): STATUS 0, SEQ IDLE, the rest
unspecified, so free values. -/
def State.clearBlock (s : State) : State :=
  { s with
    status := .zero
    seq := .idle
    inBase := maskAddr s.params (freeWord s.draws)
    inStride := freeWord (s.draws + 1)
    outBase := maskAddr s.params (freeWord (s.draws + 2))
    latInBase := maskAddr s.params (freeWord (s.draws + 3))
    latInStride := freeWord (s.draws + 4)
    latOutBase := maskAddr s.params (freeWord (s.draws + 5))
    work := freeWork s.params (s.draws + 6)
    hist := []
    raced := []
    draws := s.draws + 109 }

/-- The reset event (70_reset_and_hazards.md R400). During BUSY the pending operation is abandoned and its coefficient
window holds any values; the block resets neither `S` nor `C`. -/
def State.resetEvent (s : State) : State :=
  match s.seq with
  | .busy => s.freeWindow.clearBlock
  | .idle => s.clearBlock

end Sys2Proof.Machine
end

