-- ==== Sys2Proof/Machine/Command.lean ====
section
/-! DEFINITION. The two command rows: a host's write of CMD (10_state.md R25). -/

namespace Sys2Proof.Machine

open Sys2Proof

/-- FDCT4X4, the CMD write of 0x00000001 (46_transform.md R220, 10_state.md R25): dropped while BUSY (60_exceptions.md
R308); while idle it is accepted. A launch whose windows exist and overlap in one memory is refused (20_memory.md R64;
one whose windows do not exist makes no access and ends in E_ADDR). The block's completion is a later step,
`completeOp`. -/
def execFdct4x4 (s : State) : Host.Outcome State Fault Refusal :=
  match s.seq with
  | .busy => .next s
  | .idle =>
    if s.nextOperands.addressOk s.params && s.nextOperands.windowsOverlap s.params then .refused .windowsOverlap
    else .next s.accept

/-- A reserved command word (30_encoding.md R84): dropped while BUSY (60_exceptions.md R308), E_BADCMD while idle
(R301), whichever word it is. -/
def execReserved (_w : Word) (s : State) : Host.Outcome State Fault Refusal :=
  match s.seq with
  | .busy => .next s
  | .idle => .next (s.raiseError .badCmd)

end Sys2Proof.Machine
end

