-- ==== Sys2Proof/Machine/Butterfly.lean ====
section
/-! DEFINITION. The 1-D butterfly as a function of integers (42_butterfly.md). -/

namespace Sys2Proof.Machine

open Sys2Proof

/-- BFLY4 with every value it forms, in the rule's order (42_butterfly.md R140, R141). Each of t0..t3 is one exact
sum, rounded once (R142). `none` is E_OVF. -/
def butterfly (p : Params) (a : Vec4 Int) : Option Butterfly := do
  let a0 ← checkW p a.v0
  let a1 ← checkW p a.v1
  let a2 ← checkW p a.v2
  let a3 ← checkW p a.v3
  let s0 ← checkW p (a0 + a3)
  let s1 ← checkW p (a1 + a2)
  let s2 ← checkW p (a1 - a2)
  let s3 ← checkW p (a0 - a3)
  let e0 ← checkW p (s0 + s1)
  let e1 ← checkW p (s0 - s1)
  let t0 ← checkW p (e0 * p.c16)
  let t1 ← checkW p (e1 * p.c16)
  let s2c24 ← checkW p (s2 * p.c24)
  let s3c8 ← checkW p (s3 * p.c8)
  let t2 ← checkW p (s2c24 + s3c8)
  let negS2 ← checkW p (-s2)
  let negS2c8 ← checkW p (negS2 * p.c8)
  let s3c24 ← checkW p (s3 * p.c24)
  let t3 ← checkW p (negS2c8 + s3c24)
  let y0 ← roundShift p t0
  let y1 ← roundShift p t2
  let y2 ← roundShift p t1
  let y3 ← roundShift p t3
  return ⟨⟨a0, a1, a2, a3⟩, ⟨s0, s1, s2, s3⟩, e0, e1, s2c24, s3c8, negS2, negS2c8, s3c24,
    ⟨t0, t1, t2, t3⟩, ⟨y0, y1, y2, y3⟩⟩

/-- BFLY4's result alone: the four wide outputs in frequency order (42_butterfly.md R140). -/
def bfly4 (p : Params) (a : Vec4 Int) : Option (Vec4 Int) := (butterfly p a).map (fun b => b.y)

/-- `narrow` of each of a butterfly's outputs (46_transform.md R222, R223). -/
def bfly4Narrow (p : Params) (a : Vec4 Int) : Option (Vec4 Int) :=
  match bfly4 p a with
  | some y => Vec4.mapO (narrow p) y
  | none => none

/-- FDCT, the pure function (46_transform.md R225): scale, nudge, pass 1 over columns (R222), transpose, pass 2 over
rows (R223), final normalization. `none` is E_OVF. -/
def fdct (p : Params) (x : Blk Int) : Option (Blk Int) := do
  let scaled ← scaleBlock p x
  let pb := nudge scaled
  let i ← Vec4.mapO (bfly4Narrow p) ⟨pb.col 0, pb.col 1, pb.col 2, pb.col 3⟩
  let t := Blk.transposed i
  let z ← Vec4.mapO (bfly4Narrow p) t
  return finalNorm z

end Sys2Proof.Machine
end

