-- ==== Sys2Proof/Machine/ButterflyStage.lean ====
section
/-! DEFINITION. BFLY4 over the working storage (42_butterfly.md). -/

namespace Sys2Proof.Machine

open Sys2Proof

/-- BFLY4 (42_butterfly.md R140, R143): the butterfly of one column of P or one row of T, its four round-shifts
included; every value it forms goes to the butterfly values. A failing check is E_OVF, which ends
the operation, and what the butterfly values and the rest of the working storage hold then is any value
(93_implementation_defined.md part 1 item 7; `State.finish`, log 2). -/
def execBfly4 (lane : Lane) (s : State) : Host.Outcome State Fault Refusal :=
  inOperation s <|
    match butterfly s.params (s.work.lane lane) with
    | some b => .next { s with work := { s.work with bf := b } }
    | none => .next (s.raiseError .ovf)

end Sys2Proof.Machine
end

