-- ==== Sys2Proof/Machine/FinalNorm.lean ====
section
/-! DEFINITION. FINAL_NORM (45_final_normalization.md). -/

namespace Sys2Proof.Machine

open Sys2Proof

/-- FINAL_NORM (45_final_normalization.md R200, R201): O[i] = (Z[i] + 1) >> 2 for every i. -/
def execFinalNorm (s : State) : Host.Outcome State Fault Refusal :=
  inOperation s <| .next { s with work := { s.work with o := Sys2Proof.finalNorm s.work.z } }

end Sys2Proof.Machine
end

