-- ==== Sys2Proof/Machine/LoadScale.lean ====
section
/-! DEFINITION. LOAD_SCALE and DC_NUDGE (41_load_scale.md). -/

namespace Sys2Proof.Machine

open Sys2Proof

/-- LOAD_SCALE (41_load_scale.md R120): P is the window's samples, widened and pre-scaled by 16, each checked. The
address check of 60_exceptions.md R302 comes before it in an operation; a window outside the sample space, which no
operation brings here, is E_ADDR (20_memory.md R57; log 11). Sixteen free values count as drawn, one for each read
(log 9). -/
def execLoadScale (s : State) : Host.Outcome State Fault Refusal :=
  inOperation s <|
    if s.operands.addressOk s.params then
      match scaleBlock s.params s.window with
      | some p => .next ({ s with work := { s.work with p := p } }.drawn 16)
      | none => .next (s.raiseError .ovf)
    else .next (s.raiseError .addr)

/-- DC_NUDGE (41_load_scale.md R121): P[0][0] + 1 iff it is not zero, whatever its sign; no other value changes. -/
def execDcNudge (s : State) : Host.Outcome State Fault Refusal :=
  inOperation s <| .next { s with work := { s.work with p := nudge s.work.p } }

end Sys2Proof.Machine
end

