-- ==== Sys2Proof/Machine/RoundShift.lean ====
section
/-! DEFINITION. The round_shift_engine: ROUND_SHIFT (43_round_shift.md) and NARROW (40_arithmetic.md R102). -/

namespace Sys2Proof.Machine

open Sys2Proof

/-- ROUND_SHIFT of accumulator t_k (43_round_shift.md R160), into its place of the output (42_butterfly.md R141). A
failing rounding sum is E_OVF. -/
def execRoundShift (k : Fin 4) (s : State) : Host.Outcome State Fault Refusal :=
  inOperation s <|
    match roundShift s.params (s.work.bf.t.get k) with
    | some y =>
      .next { s with work := { s.work with bf := { s.work.bf with y := s.work.bf.y.set (outPlace k) y } } }
    | none => .next (s.raiseError .ovf)

/-- NARROW of output y_k (40_arithmetic.md R102), stored where the lane's pass stores it: I in pass 1, Z in pass 2
(43_round_shift.md R162). With NARROW_MODE = FAULT a value that does not fit L bits is E_OVF. -/
def execNarrow (lane : Lane) (k : Fin 4) (s : State) : Host.Outcome State Fault Refusal :=
  inOperation s <|
    match narrow s.params (s.work.bf.y.get k) with
    | some v => .next { s with work := s.work.storeLane lane k v }
    | none => .next (s.raiseError .ovf)

end Sys2Proof.Machine
end

