-- ==== Sys2Proof/Machine/Transpose.lean ====
section
/-! DEFINITION. TRANSPOSE (44_transpose.md). -/

namespace Sys2Proof.Machine

open Sys2Proof

/-- TRANSPOSE (44_transpose.md R181): T[r][c] = I[c][r]. -/
def execTranspose (s : State) : Host.Outcome State Fault Refusal :=
  inOperation s <| .next { s with work := { s.work with t := Blk.transposed s.work.i } }

end Sys2Proof.Machine
end

