-- ==== Sys2Proof/Machine/Complete.lean ====
section
/-! DEFINITION. The completion step of the block (46_transform.md R221), built of the micro-operations in the source's
order. -/

namespace Sys2Proof.Machine

open Sys2Proof

/-- One butterfly and the narrowing of its four outputs (46_transform.md R222, R223). -/
def laneSteps (lane : Lane) : List (State → Host.Outcome State Fault Refusal) :=
  [execBfly4 lane, execNarrow lane 0, execNarrow lane 1, execNarrow lane 2, execNarrow lane 3]

/-- Load/scale and nudge, pass 1 over the columns, transpose, pass 2 over the rows, final normalization
(46_transform.md R225). -/
def transformSteps : List (State → Host.Outcome State Fault Refusal) :=
  [execLoadScale, execDcNudge] ++
  laneSteps (.column 0) ++ laneSteps (.column 1) ++ laneSteps (.column 2) ++ laneSteps (.column 3) ++
  [execTranspose] ++
  laneSteps (.row 0) ++ laneSteps (.row 1) ++ laneSteps (.row 2) ++ laneSteps (.row 3) ++
  [execFinalNorm]

/-- The values the commit leaves in the 16 elements of the window (46_transform.md R224; raced elements: log 9). -/
def State.committed (s : State) : List Int := (Blk.flat s.work.o).mapIdx fun i v => s.commitValue i v

/-- The commit (46_transform.md R221 item 4, R224): O is written densely, then FINISH(0). The operation's own values are
O, whatever a race leaves in the window. -/
def State.commit (s : State) : State :=
  ((s.writeCoefs s.operands.outBase s.committed).drawn 16).finish 0#4 (Blk.flat s.work.o)

/-- COMPLETE() (46_transform.md R221): one step, enabled exactly when SEQ = BUSY; without a pending operation the block
does not step (10_state.md R20). The address check comes before any access (60_exceptions.md R302), so E_ADDR comes
before E_OVF (R305). -/
def completeOp (s : State) : Host.Outcome State Fault Refusal :=
  match s.seq with
  | .idle => .next s
  | .busy =>
    if s.operands.addressOk s.params then andThen (runSteps transformSteps s) fun t => .next t.commit
    else .next (s.raiseError .addr)

end Sys2Proof.Machine
end

