-- ==== Sys2Proof/Machine/Dispatch.lean ====
section
/-! DEFINITION. One arm for each row of the opcode table. -/

namespace Sys2Proof.Machine

open Sys2Proof

def exec (i : Instr) (s : State) : Host.Outcome State Fault Refusal :=
  match i with
  | .fdct4x4 => Sys2Proof.Machine.execFdct4x4 s
  | .loadScale => Sys2Proof.Machine.execLoadScale s
  | .dcNudge => Sys2Proof.Machine.execDcNudge s
  | .bfly4 lane => Sys2Proof.Machine.execBfly4 lane s
  | .roundShift k => Sys2Proof.Machine.execRoundShift k s
  | .narrow lane k => Sys2Proof.Machine.execNarrow lane k s
  | .transpose => Sys2Proof.Machine.execTranspose s
  | .finalNorm => Sys2Proof.Machine.execFinalNorm s
  | .reserved w => Sys2Proof.Machine.execReserved w s

end Sys2Proof.Machine
end

