-- ==== Sys2Proof/Machine/HostPort.lean ====
section
/-! DEFINITION. One action of the host on the instance (30_encoding.md R87), and one turn of an agent. -/

namespace Sys2Proof.Machine

open Sys2Proof

/-- A branch of the host's program (30_encoding.md R87): to the place of the label if `taken`. -/
def hostBranch (s : State) (taken : Bool) (l : Nat) : Host.Outcome State Fault Refusal :=
  if taken then
    match labelPlace l s.host.prog with
    | some n => .next { s with host := { s.host with pc := n } }
    | none => .refused .noSuchLabel
  else .next s

/-- One host statement, in the state in which the host has moved past it. A write of CMD runs the decoded command
(10_state.md R25). A register access 10_state.md R31 does not define is refused. An element access is to an element
its space has (R36), else it faults. -/
def hostAction (st : HostStmt) (s : State) : Host.Outcome State Fault Refusal :=
  match st with
  | .wr offset size v =>
    if regAccessDefined offset size then
      if offset = 0x00 then exec (decode v) s else .next (s.writeReg offset v)
    else .refused .registerAccess
  | .rd dst offset size =>
    if regAccessDefined offset size then .next ((s.observe offset).setHostVar dst (s.readReg offset))
    else .refused .registerAccess
  | .mwS a v =>
    if a < s.params.sampleWords then
      .next (s.hostStore false (sampleByteAddr s.params a) (elementBytes s.params.byteOrder 2 v.toNat))
    else .fault .noSuchElement
  | .mrC dst a =>
    if a < s.params.coefWords then
      .next (s.hostTake dst (s.hostLoad true (coefByteAddr s.params a) s.params.native.bytes s.params.nativeBits))
    else .fault .noSuchElement
  | .mwC a v =>
    if a < s.params.coefWords then
      .next (s.hostStore true (coefByteAddr s.params a) (coefBytes s.params v.toInt))
    else .fault .noSuchElement
  | .mrS dst a =>
    if a < s.params.sampleWords then .next (s.hostTake dst (s.hostLoad false (sampleByteAddr s.params a) 2 16))
    else .fault .noSuchElement
  | .label _ => .next s
  | .bnz src mask l => hostBranch s (s.hostVar src &&& mask != 0#32) l
  | .bz src mask l => hostBranch s (s.hostVar src &&& mask == 0#32) l

/-- The host's turn: its next statement, or nothing once its program is at its end. -/
def hostTurn (s : State) : Host.Outcome State Fault Refusal :=
  match s.host.prog[s.host.pc]? with
  | some st => hostAction st s.hostNext
  | none => .next s

/-- One turn (10_state.md R20, 70_reset_and_hazards.md R400). -/
def takeTurn (t : Turn) (s : State) : Host.Outcome State Fault Refusal :=
  match t with
  | .host => hostTurn s
  | .block => completeOp s
  | .reset => .next s.resetEvent

/-- Who moves when the agenda names nobody: a BUSY block completes (weak fairness, 70_reset_and_hazards.md R409), else
the host goes on (log 6). -/
def defaultTurn (s : State) : Turn :=
  match s.seq with
  | .busy => .block
  | .idle => .host

/-- The host's program with `st` as the statement at its next place (log 6). -/
def HostAgent.withNext (h : HostAgent) (st : HostStmt) : HostAgent :=
  { h with
    prog := h.prog.take h.pc ++ st :: h.prog.drop (h.pc + 1)
    pc := min h.pc h.prog.length }

end Sys2Proof.Machine
end

