-- ==== Sys2Proof/Machine/Step.lean ====
section
/-! DEFINITION. One step of the machine. -/

namespace Sys2Proof.Machine

open Sys2Proof

/-- One step: the turn the agenda names first, which is then used up; with an empty agenda, `defaultTurn`. -/
def step (s : State) : Host.Outcome State Fault Refusal :=
  match s.agenda with
  | [] => takeTurn (defaultTurn s) s
  | t :: rest => takeTurn t { s with agenda := rest }

/-- `s` with the command word placed where the machine takes its next command from: the host's next statement is the
CMD write of that word, and the host moves next (log 6). -/
def State.withFetchWord (s : State) (nbits w : Nat) : State :=
  { s with
    host := s.host.withNext (.writeReg .cmd (BitVec.ofNat 32 (w % 2 ^ nbits)))
    agenda := .host :: s.agenda }

end Sys2Proof.Machine
end

