-- ==== Sys2Proof/Safety.lean ====
section
/-! DEFINITION. What claims say of a state: its invariant, a run without races, whose turn it is, and a step that
does not stop. -/

namespace Sys2Proof.Machine

open Sys2Proof

/-- Every entry of a block fits `n` bits. -/
abbrev blkFits (n : Nat) (m : Blk Int) : Prop := ∀ r c : Fin 4, fits n (m.at r c)

/-- Every entry of a 4-vector fits `n` bits. -/
abbrev vecFits (n : Nat) (v : Vec4 Int) : Prop := ∀ k : Fin 4, fits n (v.get k)

/-- The butterfly values fit W bits (10_state.md R35). -/
structure Butterfly.Fits (p : Params) (b : Butterfly) : Prop where
  a : vecFits p.workingBits b.a
  s : vecFits p.workingBits b.s
  e0 : fits p.workingBits b.e0
  e1 : fits p.workingBits b.e1
  s2c24 : fits p.workingBits b.s2c24
  s3c8 : fits p.workingBits b.s3c8
  negS2 : fits p.workingBits b.negS2
  negS2c8 : fits p.workingBits b.negS2c8
  s3c24 : fits p.workingBits b.s3c24
  t : vecFits p.workingBits b.t
  y : vecFits p.workingBits b.y

/-- The working storage holds values of its widths: P and the butterfly values W bits, I, T, Z and O L bits
(10_state.md R35). -/
structure Work.Fits (q : Params) (w : Work) : Prop where
  p : blkFits q.workingBits w.p
  i : blkFits q.nativeBits w.i
  t : blkFits q.nativeBits w.t
  z : blkFits q.nativeBits w.z
  o : blkFits q.nativeBits w.o
  bf : w.bf.Fits q

/-- The invariant of the machine. -/
structure State.Inv (s : State) : Prop where
  /-- the parameters are a legal tuple (00_scope.md R8) -/
  legal : s.params.legal = true
  /-- the STATUS fields agree, and no reserved code stands in ECODE (10_state.md R29, 60_exceptions.md R300) -/
  statusAgrees : s.status.agrees = true
  /-- STATUS.BUSY mirrors the sequencer (10_state.md R22) -/
  busyMirrors : s.seq = .busy ↔ s.status.busy = true
  /-- the reserved bits of the address registers and latches hold 0 (10_state.md R26, R28, R34) -/
  inBaseMasked : maskAddr s.params s.inBase = s.inBase
  outBaseMasked : maskAddr s.params s.outBase = s.outBase
  latInBaseMasked : maskAddr s.params s.latInBase = s.latInBase
  latOutBaseMasked : maskAddr s.params s.latOutBase = s.latOutBase
  /-- the working storage keeps its widths (10_state.md R35) -/
  workFits : s.work.Fits s.params
  /-- the memories, their earlier contents and the host's variables keep the canonical form -/
  smemWf : s.smem.wf
  cmemWf : s.cmem.wf
  histWf : ∀ m ∈ s.hist, m.wf
  varsWf : Table.wf 0#32 s.host.vars
  /-- while idle no race is remembered -/
  idleQuiet : s.seq = .idle → s.hist = [] ∧ s.raced = []
  /-- an ended operation not yet seen DONE is on record with no value or with sixteen of L bits
  (70_reset_and_hazards.md R405) -/
  unseenRecord : ∀ w ∈ s.unseen, w.values = [] ∨ (w.values.length = 16 ∧ ∀ v ∈ w.values, fits s.params.nativeBits v)
  /-- a running operation whose windows exist keeps them apart (20_memory.md R64) -/
  windowsApart : s.seq = .busy → s.operands.addressOk s.params = true → s.operands.windowsOverlap s.params = false

/-- No agent has written a memory since the running operation was accepted (70_reset_and_hazards.md R404, R405). -/
abbrev State.quiet (s : State) : Prop := s.hist = [] ∧ s.raced = []

/-- Whose turn the next step is, and what the agenda holds after it. -/
def State.turn (s : State) : Turn × List Turn :=
  match s.agenda with
  | [] => (defaultTurn s, [])
  | t :: rest => (t, rest)

/-- The host's next statement. -/
def State.nextStmt (s : State) : Option HostStmt := s.host.prog[s.host.pc]?

/-- The state in which the host's statement runs: its place in the agenda used up, the host past the statement. -/
def State.atHostTurn (s : State) : State := State.hostNext { s with agenda := s.turn.2 }

/-- A step that does not stop. -/
def State.goesOn (s : State) : Prop := ∃ t, step s = .next t

end Sys2Proof.Machine
end

