-- ==== Sys2Proof/Certificates/Slice0/Obligations.lean ====
section
/-! DEFINITION. What is claimed of the model. Each statement's docstring names the rules of spec/ it rests on and, where a
clause is the model's own choice, the log entry. -/

open Sys2Proof Sys2Proof.Machine

/-! ### Encoding -/

/-- 30_encoding.md R83: the map has one defined command, and the decoder compares the whole word. -/
def Obligations.DecoderReadsFdctFromWordOneOnly : Prop :=
  ∀ w : Word, decode w = .fdct4x4 ↔ w = 0x00000001#32

/-- 30_encoding.md R80, R84: a word with a non-zero RSV field or another OPC is reserved. -/
def Obligations.OtherCommandWordsAreReserved : Prop :=
  ∀ (rsv : BitVec 24) (opc : BitVec 8), ¬ (rsv = 0#24 ∧ opc = 0x01#8) →
    decode (commandWord rsv opc) = .reserved (commandWord rsv opc)

/-- 30_encoding.md R83, R84, 60_exceptions.md R301: words written out from the table and its corner cases. -/
def Obligations.DocumentedWordsDecode : Prop :=
  decode 0b00000000000000000000000000000001#32 = .fdct4x4 ∧
  decode 0x00000000#32 = .reserved 0x00000000#32 ∧
  decode 0x00000002#32 = .reserved 0x00000002#32 ∧
  decode 0x000000FF#32 = .reserved 0x000000FF#32 ∧
  decode 0x00000101#32 = .reserved 0x00000101#32 ∧
  decodeTableWord 32 0x00000001 = some .fdct4x4 ∧
  decodeTableWord 32 0x00000000 = some (.reserved 0#32)

/-- 30_encoding.md R83 to R86: commands encode and decode back, words decode and encode back, and the internal
micro-operations, and only they, have no encoding. -/
def Obligations.CommandsDecodeBackFromTheirWords : Prop :=
  (∀ (i : Instr) (w : Word), i.wellFormed = true → encode i = some w → decode w = i) ∧
  (∀ w : Word, encode (decode w) = some w ∧ (decode w).wellFormed = true) ∧
  (∀ i : Instr, (encode i).isSome = i.isCommand)

/-! ### A step runs the host's statement, and a CMD write the decoded command -/

/-- 10_state.md R20, R25, 30_encoding.md R87: on the host's turn a step runs the host's next statement, and a CMD write
runs the instruction its word decodes to. Turn and place are the model's (log 6). -/
def Obligations.StepRunsTheDecodedCommand : Prop :=
  ∀ s : State, s.turn.1 = .host →
    (∀ st : HostStmt, s.nextStmt = some st → step s = hostAction st s.atHostTurn) ∧
    (∀ w : Word, s.nextStmt = some (.writeReg .cmd w) → step s = exec (decode w) s.atHostTurn) ∧
    (s.nextStmt = none → step s = .next { s with agenda := s.turn.2 })

/-- Log 6: withFetchWord makes the very next step run the instruction of that word, on the same machine. -/
def Obligations.PlacedWordIsRunNext : Prop :=
  ∀ (s : State) (nbits w : Nat), ∃ h : HostAgent,
    step (s.withFetchWord nbits w) = exec (decode (BitVec.ofNat 32 (w % 2 ^ nbits))) { s with host := h } ∧
    h.vars = s.host.vars ∧ h.pc = min s.host.pc s.host.prog.length + 1

/-- 10_state.md R20: on the block's turn a step is COMPLETE(), and without a pending operation the block does not step. -/
def Obligations.BlockStepsOnlyWhilePending : Prop :=
  ∀ s : State, s.turn.1 = .block →
    step s = completeOp { s with agenda := s.turn.2 } ∧
    (s.seq = .idle → step s = .next { s with agenda := s.turn.2 })

/-! ### Commands -/

/-- 10_state.md R25, whole: a CMD write while BUSY is dropped, 0x00000001 latches the operands and sets BUSY, any other
word is E_BADCMD, a read of CMD returns 0. (The launch that 20_memory.md R64 refuses is another statement's. `hist` and
`raced` are the model's own fields, of which nothing is said.) -/
def Obligations.CmdWriteFollowsTheRule : Prop :=
  ∀ s : State, (s.seq = .busy ↔ s.status.busy = true) →
    (∀ v : Word, s.status.busy = true → hostAction (.writeReg .cmd v) s = .next s) ∧
    (s.status.busy = false →
      ¬ (s.nextOperands.addressOk s.params = true ∧ s.nextOperands.windowsOverlap s.params = true) →
      ∃ t, hostAction (.writeReg .cmd 0x00000001#32) s = .next t ∧
        t =
          { s with
            latInBase := s.readReg 0x04
            latInStride := s.readReg 0x08
            latOutBase := s.readReg 0x0C
            status := { busy := true, done := false, err := false, ecode := 0#4 }
            seq := .busy
            hist := t.hist
            raced := t.raced }) ∧
    (∀ v : Word, s.status.busy = false → v ≠ 0x00000001#32 →
      hostAction (.writeReg .cmd v) s =
        .next { s with status := { busy := false, done := true, err := true, ecode := 1#4 } }) ∧
    (∀ dst : Nat, hostAction (.readReg dst .cmd) s = .next (s.setHostVar dst 0x00000000#32))

/-- 46_transform.md R220, 10_state.md R25, R34: FDCT4X4 issued while idle latches its operands and sets BUSY. (`hist` and
`raced` are the model's own records, log 9, of which nothing is said.) -/
def Obligations.FdctIsAcceptedWhileIdle : Prop :=
  ∀ s : State, s.seq = .idle →
    ¬ (s.nextOperands.addressOk s.params = true ∧ s.nextOperands.windowsOverlap s.params = true) →
    ∃ t, exec .fdct4x4 s = .next t ∧ t.status.word = 0x00000001#32 ∧ t.seq = .busy ∧
      t.latInBase = maskAddr s.params s.inBase ∧ t.latInStride = s.inStride ∧
      t.latOutBase = maskAddr s.params s.outBase ∧ t.operands = s.nextOperands ∧
      t = { s with
        latInBase := t.latInBase, latInStride := t.latInStride, latOutBase := t.latOutBase
        status := t.status, seq := t.seq, hist := t.hist, raced := t.raced }

/-- 60_exceptions.md R301: a reserved word written while idle is E_BADCMD, STATUS 0x00000016, and nothing else changes. -/
def Obligations.ReservedCommandIsRejected : Prop :=
  ∀ (s : State) (w : Word), w ≠ 0x00000001#32 →
    decode w = .reserved w ∧
    (s.seq = .idle →
      exec (.reserved w) s =
        .next { s with status := { busy := false, done := true, err := true, ecode := 1#4 } } ∧
      ({ busy := false, done := true, err := true, ecode := 1#4 } : Status).word = 0x00000016#32) ∧
    (s.seq = .busy → exec (.reserved w) s = .next s) ∧
    decode 0x00000000#32 = .reserved 0x00000000#32 ∧ decode 0x00000101#32 = .reserved 0x00000101#32

/-- 60_exceptions.md R308: a CMD write while BUSY is dropped, whatever the word. -/
def Obligations.CommandWhileBusyIsDropped : Prop :=
  ∀ (s : State) (w : Word), s.seq = .busy →
    exec (decode w) s = .next s ∧ hostAction (.writeReg .cmd w) s = .next s

/-- 20_memory.md R64, 70_reset_and_hazards.md R406: a launch whose windows exist and share a byte is refused, separate
spaces share none, and what sharing means on one memory. (That a launch outside the spaces ends in E_ADDR instead is the
model's reading, log 4.) -/
def Obligations.OverlappingLaunchIsRefused : Prop :=
  (∀ s : State, s.seq = .idle → s.nextOperands.addressOk s.params = true →
    s.nextOperands.windowsOverlap s.params = true → exec .fdct4x4 s = .refused .windowsOverlap) ∧
  (∀ (p : Params) (o : Operands), p.platform = .separate → o.windowsOverlap p = false) ∧
  (∀ (p : Params) (o : Operands) (sb cb : Nat), p.platform = .shared sb cb →
    (o.windowsOverlap p = true ↔ ∃ (r c : Fin 4) (x : Nat),
      (sb + 2 * (o.sampleAddr r c).toNat ≤ x ∧ x < sb + 2 * (o.sampleAddr r c).toNat + 2) ∧
      (cb + p.native.bytes * o.outBase ≤ x ∧ x < cb + p.native.bytes * o.outBase + 16 * p.native.bytes)))

/-- 60_exceptions.md R300, R305, R306: what `raise` may change. Registers, latches, parameters and the host stay; only
E_OVF changes memory, and only the bytes of the coefficient window. -/
def Obligations.ErrorsChangeOnlyWhatTheyMay : Prop :=
  ∀ (s : State) (e : ErrCode),
    let t := s.raiseError e
    t.status = { busy := false, done := true, err := true, ecode := e.code } ∧
    (e ≠ .badCmd → t.seq = .idle) ∧
    t.params = s.params ∧ t.inBase = s.inBase ∧ t.inStride = s.inStride ∧ t.outBase = s.outBase ∧
    t.latInBase = s.latInBase ∧ t.latInStride = s.latInStride ∧ t.latOutBase = s.latOutBase ∧
    t.host = s.host ∧ t.agenda = s.agenda ∧
    (e ≠ .ovf → t.smem = s.smem ∧ t.cmem = s.cmem) ∧
    (∀ x : Nat, x < coefByteAddr s.params s.operands.outBase ∨
        coefByteAddr s.params s.operands.outBase + 16 * s.params.native.bytes ≤ x →
      t.coefMem.read x = s.coefMem.read x) ∧
    (s.params.platform = .separate → t.smem = s.smem)

/-! ### Registers -/

/-- 10_state.md R26, R27: a write of an operand register takes effect at once, reserved bits are ignored and read 0,
every value is legal, the stride is read as a signed number. R24, R29, R30, R31: writes of STATUS, CONFIG and the reserved
offsets are ignored. -/
def Obligations.RegisterWritesFollowTheMap : Prop :=
  ∀ (s : State) (v : Word),
    hostAction (.writeReg .inBase v) s = .next { s with inBase := maskAddr s.params v } ∧
    hostAction (.writeReg .inStride v) s = .next { s with inStride := v } ∧
    hostAction (.writeReg .outBase v) s = .next { s with outBase := maskAddr s.params v } ∧
    (∀ k : Nat, (maskAddr s.params v).getLsbD k = (decide (k < s.params.addrBits) && v.getLsbD k)) ∧
    ({ s with inBase := maskAddr s.params v } : State).nextOperands.inBase =
      ((v.toNat % 2 ^ s.params.addrBits : Nat) : Int) ∧
    ({ s with inStride := v } : State).nextOperands.stride = v.toInt ∧
    ({ s with outBase := maskAddr s.params v } : State).nextOperands.outBase = v.toNat % 2 ^ s.params.addrBits ∧
    hostAction (.writeReg .status v) s = .next s ∧ hostAction (.writeReg .config v) s = .next s ∧
    hostAction (.wr 0x18 4 v) s = .next s ∧ hostAction (.wr 0x1C 4 v) s = .next s

/-- 10_state.md R24 to R31: what each offset reads; no register changes. A read of STATUS with DONE = 1 publishes the
completed windows (20_memory.md R58 item 4), which is the model's bookkeeping (log 10). -/
def Obligations.RegisterReadsReturnTheMap : Prop :=
  ∀ (s : State) (dst : Nat),
    hostAction (.readReg dst .cmd) s = .next (s.setHostVar dst 0#32) ∧
    hostAction (.readReg dst .inBase) s = .next (s.setHostVar dst (maskAddr s.params s.inBase)) ∧
    hostAction (.readReg dst .inStride) s = .next (s.setHostVar dst s.inStride) ∧
    hostAction (.readReg dst .outBase) s = .next (s.setHostVar dst (maskAddr s.params s.outBase)) ∧
    hostAction (.readReg dst .status) s =
      .next (State.setHostVar { s with unseen := if s.status.done = true then [] else s.unseen } dst s.status.word) ∧
    hostAction (.readReg dst .config) s = .next (s.setHostVar dst (configWord s.params)) ∧
    hostAction (.rd dst 0x18 4) s = .next (s.setHostVar dst 0#32) ∧
    hostAction (.rd dst 0x1C 4) s = .next (s.setHostVar dst 0#32) ∧
    (∀ v : Word, (s.setHostVar dst v).hostVar dst = v)

/-- 10_state.md R31: a narrower, wider or misaligned register access, or one outside the block, has no meaning. -/
def Obligations.UndefinedRegisterAccessIsRefused : Prop :=
  ∀ (s : State) (dst offset size : Nat) (v : Word), ¬ (size = 4 ∧ offset % 4 = 0 ∧ offset ≤ 0x1C) →
    hostAction (.wr offset size v) s = .refused .registerAccess ∧
    hostAction (.rd dst offset size) s = .refused .registerAccess

/-- 10_state.md R29: the bits of STATUS. -/
def Obligations.StatusWordHasItsFields : Prop :=
  ∀ st : Status,
    st.word.getLsbD 0 = st.busy ∧ st.word.getLsbD 1 = st.done ∧ st.word.getLsbD 2 = st.err ∧
    st.word.getLsbD 3 = false ∧ st.word.extractLsb' 4 4 = st.ecode ∧ st.word.extractLsb' 8 24 = 0#24

/-- 10_state.md R30, whole: the fields of CONFIG, and its value in the two named configurations. -/
def Obligations.ConfigReportsTheParameters : Prop :=
  (∀ p : Params, p.legal = true →
    (configWord p).getLsbD 0 = (p.native == .l32) ∧
    (configWord p).getLsbD 1 = (p.working == .w64) ∧
    (configWord p).getLsbD 2 = (p.narrowMode == .wrap) ∧
    (configWord p).getLsbD 3 = false ∧
    ((configWord p).extractLsb' 4 5).toNat = p.radix ∧
    ((configWord p).extractLsb' 9 3).toNat = 0 ∧
    ((configWord p).extractLsb' 12 4).toNat = p.bitDepth.bits ∧
    ((configWord p).extractLsb' 16 6).toNat = p.addrBits ∧
    ((configWord p).extractLsb' 22 2).toNat = 0 ∧
    ((configWord p).extractLsb' 24 8).toNat = 7) ∧
  configWord cfgLbd = 0x072080E0#32 ∧ configWord cfgHbd = 0x0720C0E3#32 ∧
  (∀ (s : State) (v : Word) (dst : Nat), hostAction (.writeReg .config v) s = .next s ∧
    hostAction (.readReg dst .config) s = .next (s.setHostVar dst (configWord s.params)))

/-- 10_state.md R32: the operand registers can be written at any time; a write during BUSY reaches the registers alone,
and the running operation, which uses its latches, does the same as without it (R35: its working storage cannot be
observed). -/
def Obligations.WritesWhileBusyLeaveTheOperation : Prop :=
  ∀ (s : State) (offset : Nat) (v : Word), offset = 0x04 ∨ offset = 0x08 ∨ offset = 0x0C →
    ∃ s' : State, hostAction (.wr offset 4 v) s = .next s' ∧
      s' = { s with inBase := s'.inBase, inStride := s'.inStride, outBase := s'.outBase } ∧
      (s.seq = .busy → ∀ t : State, completeOp s = .next t → ∃ w : Work,
        completeOp s' = .next { t with inBase := s'.inBase, inStride := s'.inStride, outBase := s'.outBase, work := w })

/-! ### Arithmetic -/

/-- 40_arithmetic.md R103: `>>` is the floor of the division by 2^n, for negative values too. -/
def Obligations.RightShiftIsTheFloor : Prop :=
  ∀ (v : Int) (n : Nat), asr v n * 2 ^ n ≤ v ∧ v < (asr v n + 1) * 2 ^ n

/-- 00_scope.md R11: wrap_N gives the one integer that fits N bits and is congruent modulo 2^N. -/
def Obligations.WrapIsTheFittingResidue : Prop :=
  ∀ (n : Nat) (v : Int), 1 ≤ n →
    (-(2 ^ (n - 1)) ≤ wrap n v ∧ wrap n v ≤ 2 ^ (n - 1) - 1) ∧
    ((2 : Int) ^ n ∣ wrap n v - v) ∧
    (∀ w : Int, -(2 ^ (n - 1)) ≤ w → w ≤ 2 ^ (n - 1) - 1 → (2 : Int) ^ n ∣ w - v → w = wrap n v)

/-- 43_round_shift.md R161: ROUND_SHIFT is floor(v / 2^R + 1/2), ties toward plus infinity for both signs, and is not
symmetric. -/
def Obligations.RoundShiftRoundsHalvesUp : Prop :=
  (∀ (p : Params) (v y : Int), 1 ≤ p.radix → roundShift p v = some y →
    2 * v - 2 ^ p.radix < 2 * (y * 2 ^ p.radix) ∧ 2 * (y * 2 ^ p.radix) ≤ 2 * v + 2 ^ p.radix) ∧
  (∀ p : Params, p.radix = 14 → roundShift p 8192 = some 1 ∧ roundShift p (-8192) = some 0)

/-- 40_arithmetic.md R109: BIT_DEPTH is not tested; it changes no result. -/
def Obligations.BitDepthIsNotChecked : Prop :=
  ∀ (p : Params) (d : BitDepth) (x : Blk Int), fdct { p with bitDepth := d } x = fdct p x

/-- 00_scope.md R8, R9, 40_arithmetic.md R106, 10_state.md R33: the named configurations are legal, with the default
table and its identity. (The parameters R8 leaves open are the model's there, log 1.) -/
def Obligations.NamedConfigurationsAreLegal : Prop :=
  cfgLbd.legal = true ∧ cfgHbd.legal = true ∧ cfgLbd.defaultTable = true ∧ cfgHbd.defaultTable = true ∧
  cfgLbd.nativeBits = 16 ∧ cfgLbd.workingBits = 32 ∧ cfgLbd.sampleLimit = 255 ∧
  cfgHbd.nativeBits = 32 ∧ cfgHbd.workingBits = 64 ∧ cfgHbd.sampleLimit = 4095 ∧
  2 * cfgLbd.c16 ^ 2 = 268424450 ∧ cfgLbd.c8 ^ 2 + cfgLbd.c24 ^ 2 = 268441669

/-! ### The micro-operations -/

/-- 41_load_scale.md R120: P[r][c] is 16 times the sample at in_base + r*stride + c, and nothing else changes. With no
agent writing during the operation each sample is what the space holds; otherwise it is one of the values it held while
the operation ran (20_memory.md R58 item 5, 70_reset_and_hazards.md R404): that it may be any of them is the model's
reading (log 9). A window outside its space is E_ADDR (20_memory.md R57); that this micro-operation raises it, which the
completion step's check comes before, is the model's (log 11). Of the model's own count of free values nothing is said. -/
def Obligations.LoadScaleReadsTheWindow : Prop :=
  ∀ s : State, s.seq = .busy →
    let addr (r c : Fin 4) : Int :=
      ((s.latInBase.toNat % 2 ^ s.params.addrBits : Nat) : Int) + (r.val : Int) * s.latInStride.toInt + (c.val : Int)
    (s.operands.addressOk s.params = true →
      ∃ (t : State) (m : Blk Int), exec .loadScale s = .next t ∧
        t = { s with work := { s.work with p := m }, draws := t.draws } ∧
        (∀ r c : Fin 4, ∃ h ∈ s.smem :: s.hist, m.at r c = 16 * sampleIn s.params h (addr r c).toNat) ∧
        (s.hist = [] → ∀ r c : Fin 4, m.at r c = 16 * s.sample (addr r c).toNat)) ∧
    (s.operands.addressOk s.params = false → exec .loadScale s = .next (s.raiseError .addr))

/-- 41_load_scale.md R121: +1 at (0, 0) iff the value there is not zero, whatever its sign; every other value, and the
rest of the state, stays. -/
def Obligations.DcNudgeIsOneAtTheCorner : Prop :=
  ∀ s : State, s.seq = .busy →
    ∃ m : Blk Int, exec .dcNudge s = .next { s with work := { s.work with p := m } } ∧
      (s.work.p.at 0 0 ≠ 0 → m.at 0 0 = s.work.p.at 0 0 + 1) ∧
      (s.work.p.at 0 0 = 0 → m.at 0 0 = 0) ∧
      (∀ r c : Fin 4, ¬ (r = 0 ∧ c = 0) → m.at r c = s.work.p.at r c)

/-- 42_butterfly.md R140, R141, R142, R143, 40_arithmetic.md R101: the butterfly of a column of P or a row of T, every
value it checks, its outputs in frequency order; with a value that does not fit W bits, E_OVF. Nothing but the butterfly
values changes. -/
def Obligations.ButterflyFollowsTheRule : Prop :=
  (∀ (s : State) (lane : Lane), s.seq = .busy →
    let p := s.params
    let a := s.work.lane lane
    let s0 := a.v0 + a.v3
    let s1 := a.v1 + a.v2
    let s2 := a.v1 - a.v2
    let s3 := a.v0 - a.v3
    let t0 := (s0 + s1) * p.c16
    let t1 := (s0 - s1) * p.c16
    let t2 := s2 * p.c24 + s3 * p.c8
    let t3 := -s2 * p.c8 + s3 * p.c24
    let half := (2 : Int) ^ (p.radix - 1)
    let checked := [a.v0, a.v1, a.v2, a.v3, s0, s1, s2, s3, s0 + s1, s0 - s1, t0, t1, s2 * p.c24, s3 * p.c8, -s2,
      -s2 * p.c8, s3 * p.c24, t2, t3, t0 + half, t1 + half, t2 + half, t3 + half]
    ((∀ v ∈ checked, fits p.workingBits v) →
      exec (.bfly4 lane) s = .next
        { s with
          work :=
            { s.work with
              bf :=
                { a := a
                  s := ⟨s0, s1, s2, s3⟩
                  e0 := s0 + s1
                  e1 := s0 - s1
                  s2c24 := s2 * p.c24
                  s3c8 := s3 * p.c8
                  negS2 := -s2
                  negS2c8 := -s2 * p.c8
                  s3c24 := s3 * p.c24
                  t := ⟨t0, t1, t2, t3⟩
                  y := ⟨(t0 + half) / 2 ^ p.radix, (t2 + half) / 2 ^ p.radix, (t1 + half) / 2 ^ p.radix,
                    (t3 + half) / 2 ^ p.radix⟩ } } }) ∧
    (¬ (∀ v ∈ checked, fits p.workingBits v) → exec (.bfly4 lane) s = .next (s.raiseError .ovf))) ∧
  (∀ (w : Work) (k : Fin 4),
    w.lane (.column k) = ⟨w.p.at 0 k, w.p.at 1 k, w.p.at 2 k, w.p.at 3 k⟩ ∧
    w.lane (.row k) = ⟨w.t.at k 0, w.t.at k 1, w.t.at k 2, w.t.at k 3⟩)

/-- 43_round_shift.md R160, 42_butterfly.md R141: accumulator t_k is rounded into its place of the output, t1 into
place 2 and t2 into place 1; with a rounding sum that does not fit W bits, E_OVF. Nothing else changes. -/
def Obligations.RoundShiftOfAnAccumulator : Prop :=
  ∀ (s : State) (k : Fin 4), s.seq = .busy →
    let u := s.work.bf.t.get k + 2 ^ (s.params.radix - 1)
    (fits s.params.workingBits u →
      ∃ y : Vec4 Int,
        exec (.roundShift k) s = .next { s with work := { s.work with bf := { s.work.bf with y := y } } } ∧
        y.get (if k = 1 then 2 else if k = 2 then 1 else k) = u / 2 ^ s.params.radix ∧
        (∀ j : Fin 4, j ≠ (if k = 1 then 2 else if k = 2 then 1 else k) → y.get j = s.work.bf.y.get j)) ∧
    (¬ fits s.params.workingBits u → exec (.roundShift k) s = .next (s.raiseError .ovf))

/-- 40_arithmetic.md R102, 43_round_shift.md R162: output y_k narrowed into I[c][k] or Z[r][k]: as it is if it fits L
bits, else wrapped or E_OVF by NARROW_MODE. Nothing else changes. -/
def Obligations.NarrowStoresOrWrapsOrRaises : Prop :=
  ∀ (s : State) (lane : Lane) (k : Fin 4), s.seq = .busy →
    let v := s.work.bf.y.get k
    let stored (x : Int) : State :=
      match lane with
      | .column c => { s with work := { s.work with i := Blk.put s.work.i c k x } }
      | .row r => { s with work := { s.work with z := Blk.put s.work.z r k x } }
    (fits s.params.nativeBits v → exec (.narrow lane k) s = .next (stored v)) ∧
    (¬ fits s.params.nativeBits v → s.params.narrowMode = .fault →
      exec (.narrow lane k) s = .next (s.raiseError .ovf)) ∧
    (¬ fits s.params.nativeBits v → s.params.narrowMode = .wrap →
      exec (.narrow lane k) s = .next (stored (wrap s.params.nativeBits v)))

/-- 44_transpose.md R181, R182: T[r][c] = I[c][r] by rows and columns and by flat index; applied twice it is the
identity; nothing else changes. -/
def Obligations.TransposeMovesEveryEntry : Prop :=
  (∀ s : State, s.seq = .busy →
    ∃ m : Blk Int, exec .transpose s = .next { s with work := { s.work with t := m } } ∧
      (∀ r c : Fin 4, m.at r c = s.work.i.at c r) ∧
      Blk.transposed m = s.work.i ∧
      Blk.flat m = [0, 4, 8, 12, 1, 5, 9, 13, 2, 6, 10, 14, 3, 7, 11, 15].map fun j => (Blk.flat s.work.i).getD j 0)

/-- 45_final_normalization.md R200, R201: every O from its own Z, floor((Z + 1) / 4), halves of a quarter toward minus
infinity, always within L bits; nothing else changes. -/
def Obligations.FinalNormDividesByFour : Prop :=
  (∀ s : State, s.seq = .busy →
    ∃ m : Blk Int, exec .finalNorm s = .next { s with work := { s.work with o := m } } ∧
      (∀ r c : Fin 4, m.at r c = (s.work.z.at r c + 1) / 4) ∧
      (∀ r c : Fin 4, fits s.params.nativeBits (s.work.z.at r c) → fits s.params.nativeBits (m.at r c))) ∧
  (∀ q m : Int, 0 ≤ m → m ≤ 3 → normalizeValue (4 * q + m) = if m = 3 then q + 1 else q)

/-- 30_encoding.md R86, 10_state.md R20: no micro-operation runs outside an operation (the refusal's form is the model's,
log 11). -/
def Obligations.MicroOperationsNeedAnOperation : Prop :=
  ∀ (i : Instr) (s : State), i.isCommand = false → s.seq = .idle → exec i s = .refused .noOperation

/-! ### FDCT and the completion step -/

/-- 46_transform.md R222, R223, R225: FDCT is the two passes: scaled and nudged columns through the butterfly, narrowed,
transposed, rows through the butterfly, narrowed, normalized. -/
def Obligations.FdctIsTheTwoPassPipeline : Prop :=
  ∀ (p : Params) (x o : Blk Int), (∀ r c : Fin 4, fits 16 (x.at r c)) →
    let pb (r c : Fin 4) : Int := 16 * x.at r c + (if r = 0 ∧ c = 0 ∧ x.at 0 0 ≠ 0 then 1 else 0)
    (fdct p x = some o ↔ ∃ i z : Blk Int,
      (∀ c : Fin 4, ∃ y, bfly4 p ⟨pb 0 c, pb 1 c, pb 2 c, pb 3 c⟩ = some y ∧
        ∀ k : Fin 4, narrow p (y.get k) = some (i.at c k)) ∧
      (∀ r : Fin 4, ∃ y, bfly4 p ⟨i.at 0 r, i.at 1 r, i.at 2 r, i.at 3 r⟩ = some y ∧
        ∀ v : Fin 4, narrow p (y.get v) = some (z.at r v)) ∧
      (∀ u v : Fin 4, o.at u v = (z.at u v + 1) / 4))

/-- 46_transform.md R221, R224: with the windows in their spaces, no race and a result that fits, the completion step
writes FDCT of the samples densely in row-major order, sets STATUS to DONE, and changes no other byte, register or
latch. -/
def Obligations.CompletionCommitsFdct : Prop :=
  ∀ (s : State) (o : Blk Int), s.seq = .busy → s.operands.addressOk s.params = true → s.quiet →
    fdct s.params (Blk.ofFn fun r c => s.sample (s.operands.sampleAddr r c).toNat) = some o →
    ∃ t, completeOp s = .next t ∧
      t.status = { busy := false, done := true, err := false, ecode := 0#4 } ∧ t.status.word = 0x00000002#32 ∧
      t.seq = .idle ∧
      (∀ u v : Fin 4, t.coef (s.operands.outBase + (4 * u.val + v.val)) = o.at u v) ∧
      (∀ a : Nat, a < s.operands.outBase ∨ s.operands.outBase + 16 ≤ a → t.coef a = s.coef a) ∧
      (∀ x : Nat, x < coefByteAddr s.params s.operands.outBase ∨
          coefByteAddr s.params s.operands.outBase + 16 * s.params.native.bytes ≤ x →
        t.coefMem.read x = s.coefMem.read x ∧ (s.params.isShared = true → t.smem.read x = s.smem.read x)) ∧
      (s.params.platform = .separate → t.smem = s.smem) ∧
      t.params = s.params ∧ t.inBase = s.inBase ∧ t.inStride = s.inStride ∧ t.outBase = s.outBase ∧
      t.latInBase = s.latInBase ∧ t.latInStride = s.latInStride ∧ t.latOutBase = s.latOutBase ∧
      t.host = s.host ∧ t.agenda = s.agenda

/-- 46_transform.md R220: FDCT4X4 issued while idle, then the block's completion step: the 16 coefficients are FDCT of
the 16 samples the registers select. -/
def Obligations.CommandThenCompletionTransforms : Prop :=
  ∀ (s : State) (o : Blk Int), s.seq = .idle → s.nextOperands.addressOk s.params = true →
    s.nextOperands.windowsOverlap s.params = false →
    fdct s.params (Blk.ofFn fun r c => s.sample (s.nextOperands.sampleAddr r c).toNat) = some o →
    ∃ t u, exec .fdct4x4 s = .next t ∧ t.status.word = 0x00000001#32 ∧
      completeOp t = .next u ∧ u.status.word = 0x00000002#32 ∧ u.seq = .idle ∧
      (∀ i j : Fin 4, u.coef (s.nextOperands.outBase + (4 * i.val + j.val)) = o.at i j) ∧
      (∀ a : Nat, a < s.nextOperands.outBase ∨ s.nextOperands.outBase + 16 ≤ a → u.coef a = s.coef a) ∧
      (s.params.platform = .separate → u.smem = s.smem) ∧
      u.inBase = s.inBase ∧ u.inStride = s.inStride ∧ u.outBase = s.outBase

/-- 60_exceptions.md R302, 30_encoding.md R81, R82: the address check, in exact integers; when it fails the completion
step ends in E_ADDR, STATUS 0x00000026, with nothing read and nothing written; when it passes it does not. (Of the
model's own records `hist`, `raced` and `unseen`, of its count of free values, and of the working storage, which holds any
values outside an operation, nothing is said.) -/
def Obligations.AddressErrorTouchesNoMemory : Prop :=
  ∀ s : State, s.seq = .busy →
    let addr (r c : Fin 4) : Int :=
      ((s.latInBase.toNat % 2 ^ s.params.addrBits : Nat) : Int) + (r.val : Int) * s.latInStride.toInt + (c.val : Int)
    let outBase : Nat := s.latOutBase.toNat % 2 ^ s.params.addrBits
    let ok : Prop := (∀ r c : Fin 4, 0 ≤ addr r c ∧ addr r c < (s.params.sampleWords : Int)) ∧
      outBase + 15 < s.params.coefWords
    (¬ ok →
      ∃ t, completeOp s = .next t ∧ t.status.word = 0x00000026#32 ∧
        t =
          { s with
            status := { busy := false, done := true, err := true, ecode := 2#4 }
            seq := .idle
            work := t.work
            hist := t.hist
            raced := t.raced
            unseen := t.unseen
            draws := t.draws }) ∧
    (ok → ∃ t, completeOp s = .next t ∧ t.status.ecode ≠ 2#4)

/-- 60_exceptions.md R303, 20_memory.md R53: an overflow ends the operation with STATUS 0x00000036, and no byte outside
the coefficient window, no register and no latch changes. -/
def Obligations.OverflowReachesTheWindowOnly : Prop :=
  ∀ s : State, s.seq = .busy → s.operands.addressOk s.params = true → fdct s.params s.window = none →
    ∃ t, completeOp s = .next t ∧
      t.status = { busy := false, done := true, err := true, ecode := 3#4 } ∧ t.status.word = 0x00000036#32 ∧
      t.seq = .idle ∧
      (∀ a : Nat, a < s.operands.outBase ∨ s.operands.outBase + 16 ≤ a → t.coef a = s.coef a) ∧
      (∀ x : Nat, x < coefByteAddr s.params s.operands.outBase ∨
          coefByteAddr s.params s.operands.outBase + 16 * s.params.native.bytes ≤ x →
        t.coefMem.read x = s.coefMem.read x ∧ (s.params.isShared = true → t.smem.read x = s.smem.read x)) ∧
      (s.params.platform = .separate → t.smem = s.smem) ∧
      t.params = s.params ∧ t.inBase = s.inBase ∧ t.inStride = s.inStride ∧ t.outBase = s.outBase ∧
      t.latInBase = s.latInBase ∧ t.latInStride = s.latInStride ∧ t.latOutBase = s.latOutBase

/-- 20_memory.md R58 item 5, 70_reset_and_hazards.md R404, R405: with races, the operation is FDCT of a mix of old and
new samples, and each coefficient of the window ends as the operation's value or, if an agent wrote it during the
operation, as that agent's. (What the record of racing writes means: CoefficientWriteLandsOrNot; its form is the model's,
log 9.) -/
def Obligations.RacedOperationMixesOldAndNew : Prop :=
  ∀ s : State, s.seq = .busy → s.operands.addressOk s.params = true →
    (∀ r c : Fin 4, ∃ h ∈ s.smem :: s.hist,
      s.window.at r c = sampleIn s.params h (s.operands.sampleAddr r c).toNat) ∧
    (∀ o : Blk Int, fdct s.params s.window = some o →
      ∃ t, completeOp s = .next t ∧ t.status.word = 0x00000002#32 ∧
        ∀ u v : Fin 4,
          t.coef (s.operands.outBase + (4 * u.val + v.val)) = o.at u v ∨
          (s.coefRaced (s.operands.outBase + (4 * u.val + v.val)) = true ∧
            t.coef (s.operands.outBase + (4 * u.val + v.val)) =
              s.writerCoef (s.operands.outBase + (4 * u.val + v.val))))

/-- 10_state.md R35, R40: no value of an earlier operation's working storage, and no reset value of it, reaches a
result. -/
def Obligations.EarlierStorageReachesNoResult : Prop :=
  ∀ (s t : State) (w : Work), s.seq = .busy → completeOp s = .next t →
    ∃ w', completeOp { s with work := w } = .next { t with work := w' }

/-- 46_transform.md R227: the result depends on the 16 samples and the parameters alone, not on the base, the stride,
the output base or what ran before. -/
def Obligations.ResultDependsOnSamplesAlone : Prop :=
  ∀ s₁ s₂ : State, s₁.params = s₂.params → s₁.seq = .busy → s₂.seq = .busy → s₁.quiet → s₂.quiet →
    s₁.operands.addressOk s₁.params = true → s₂.operands.addressOk s₂.params = true →
    (∀ r c : Fin 4, s₁.sample (s₁.operands.sampleAddr r c).toNat = s₂.sample (s₂.operands.sampleAddr r c).toNat) →
    ∃ t₁ t₂, completeOp s₁ = .next t₁ ∧ completeOp s₂ = .next t₂ ∧ t₁.status = t₂.status ∧
      (t₁.status.err = false → ∀ i : Nat, i < 16 →
        t₁.coef (s₁.operands.outBase + i) = t₂.coef (s₂.operands.outBase + i))

/-- 20_memory.md R54: with separate spaces nothing the block does writes the sample space. -/
def Obligations.BlockNeverWritesSamples : Prop :=
  ∀ s t : State, s.params.platform = .separate →
    (∀ i : Instr, exec i s = .next t → t.smem = s.smem) ∧ (completeOp s = .next t → t.smem = s.smem)

/-! ### What FDCT gives -/

/-- 40_arithmetic.md R108: with the default table, legal input never overflows in the widths the table names, no 16-bit
input overflows L = 32 with W = 64, and the outputs stay within the table's bounds, in either NARROW_MODE. -/
def Obligations.LegalInputNeverOverflows : Prop :=
  ∀ (p : Params) (x : Blk Int), p.defaultTable = true →
    ((∀ r c : Fin 4, -255 ≤ x.at r c ∧ x.at r c ≤ 255) →
      ∃ o, fdct p x = some o ∧ ∀ u v : Fin 4, -8162 ≤ o.at u v ∧ o.at u v ≤ 8162) ∧
    (p.native = .l32 → (∀ r c : Fin 4, -1023 ≤ x.at r c ∧ x.at r c ≤ 1023) →
      ∃ o, fdct p x = some o ∧ ∀ u v : Fin 4, -32737 ≤ o.at u v ∧ o.at u v ≤ 32737) ∧
    (p.native = .l32 → p.working = .w64 → (∀ r c : Fin 4, -4095 ≤ x.at r c ∧ x.at r c ≤ 4095) →
      ∃ o, fdct p x = some o ∧ ∀ u v : Fin 4, -131037 ≤ o.at u v ∧ o.at u v ≤ 131037) ∧
    (p.native = .l32 → p.working = .w64 → (∀ r c : Fin 4, fits 16 (x.at r c)) →
      ∃ o, fdct p x = some o ∧ ∀ u v : Fin 4, -1048535 ≤ o.at u v ∧ o.at u v ≤ 1048535)

/-- 40_arithmetic.md R108: outside the legal range, or in a width too small, constant blocks overflow: 257 in L = 16
(and 256 does not), 1023 in L = 16, 4095 in W = 32. -/
def Obligations.NarrowBuildsOverflow : Prop :=
  let const (k : Int) : Blk Int := Blk.ofFn fun _ _ => k
  fdct cfgLbd (const 257) = none ∧ (fdct cfgLbd (const 256)).isSome = true ∧
  fdct { cfgLbd with bitDepth := .bd10 } (const 1023) = none ∧
  fdct { cfgHbd with working := .w32 } (const 4095) = none

/-- 46_transform.md R228 item 1: the zero block gives zeros, in every configuration. -/
def Obligations.ZeroBlockGivesZeros : Prop :=
  ∀ p : Params, p.legal = true →
    fdct p (Blk.ofFn fun _ _ => 0) = some (Blk.ofFn fun _ _ => 0)

/-- 46_transform.md R228 item 2, 45_final_normalization.md R202: with the default table, L = 32 and W = 64, a constant
block of any 16-bit k gives zeros but for O[0], which is 32k exactly while |k| <= 178. -/
def Obligations.ConstantBlockHasOnlyDc : Prop :=
  ∀ (p : Params) (k : Int), p.defaultTable = true → p.native = .l32 → p.working = .w64 → fits 16 k →
    ∃ o, fdct p (Blk.ofFn fun _ _ => k) = some o ∧
      (∀ u v : Fin 4, ¬ (u = 0 ∧ v = 0) → o.at u v = 0) ∧
      (-178 ≤ k → k ≤ 178 → o.at 0 0 = 32 * k)

/-! ### Reset -/

/-- 70_reset_and_hazards.md R400: the reset event. STATUS is 0, SEQ IDLE, reserved address bits read 0; the sample space,
the parameters and the host stay; memory stays but for the coefficient window of an abandoned operation. -/
def Obligations.ResetEventAbandonsAndClears : Prop :=
  ∀ s : State, s.turn.1 = .reset →
    ∃ t, step s = .next t ∧ t.status.word = 0x00000000#32 ∧ t.seq = .idle ∧
      (t.readReg 0x04).toNat < 2 ^ s.params.addrBits ∧ (t.readReg 0x0C).toNat < 2 ^ s.params.addrBits ∧
      t.params = s.params ∧ t.readReg 0x14 = s.readReg 0x14 ∧ t.host = s.host ∧ t.agenda = s.turn.2 ∧
      (s.seq = .idle → t.smem = s.smem ∧ t.cmem = s.cmem) ∧
      (∀ x : Nat, x < coefByteAddr s.params s.operands.outBase ∨
          coefByteAddr s.params s.operands.outBase + 16 * s.params.native.bytes ≤ x →
        t.coefMem.read x = s.coefMem.read x) ∧
      (s.params.platform = .separate → t.smem = s.smem)

/-- 10_state.md R40: the values the spec gives for reset. (CONFIG reads the parameters State.reset carries, log 1.) -/
def Obligations.ResetStateReadsAsTheSpecSays : Prop :=
  State.reset.readReg 0x00 = 0#32 ∧ State.reset.readReg 0x10 = 0x00000000#32 ∧ State.reset.seq = .idle ∧
  State.reset.readReg 0x18 = 0#32 ∧ State.reset.readReg 0x1C = 0#32 ∧
  State.reset.readReg 0x14 = configWord State.reset.params ∧ State.reset.status = ⟨false, false, false, 0#4⟩

/-! ### Every step -/

/-- The invariant holds after reset. -/
def Obligations.ResetStateMeetsTheInvariant : Prop := State.reset.Inv

/-- Every step keeps the invariant: legal parameters, agreeing STATUS fields and no reserved code (10_state.md R29,
60_exceptions.md R300), BUSY mirrored (R22), reserved bits 0 (R26, R28), working storage within its widths (R35),
canonical memories, windows apart (20_memory.md R64), sixteen L-bit values or none on record of an ended operation
(70_reset_and_hazards.md R405; the record is the model's, log 10). -/
def Obligations.EveryStepKeepsTheInvariant : Prop :=
  ∀ s t : State, s.Inv → step s = .next t → t.Inv

/-- 70_reset_and_hazards.md R402, 00_scope.md R8: no step, and no reset, changes the parameters, and CONFIG reads the
same. -/
def Obligations.ParametersNeverChange : Prop :=
  ∀ s t : State, step s = .next t → t.params = s.params ∧ t.readReg 0x14 = s.readReg 0x14

/-- 10_state.md R29: only a CMD write, the completion of an operation, and reset write STATUS. -/
def Obligations.OnlyThreeEventsWriteStatus : Prop :=
  ∀ s t : State, step s = .next t → t.status ≠ s.status →
    (s.turn.1 = .host ∧ s.seq = .idle ∧ ∃ v, s.nextStmt = some (.writeReg .cmd v)) ∨
    (s.turn.1 = .block ∧ s.seq = .busy) ∨ s.turn.1 = .reset

/-- 10_state.md R25, R34, R400 of 70_reset_and_hazards.md: the latches change only when a command is accepted and at
reset. -/
def Obligations.LatchesChangeOnlyAtAcceptance : Prop :=
  ∀ s t : State, step s = .next t →
    ¬ (t.latInBase = s.latInBase ∧ t.latInStride = s.latInStride ∧ t.latOutBase = s.latOutBase) →
    (s.turn.1 = .host ∧ s.seq = .idle ∧ s.nextStmt = some (.writeReg .cmd 0x00000001#32)) ∨ s.turn.1 = .reset

/-- 46_transform.md R221, 93_implementation_defined.md: the completion step always ends the operation: the block is never
stuck. -/
def Obligations.CompletionAlwaysEndsTheOperation : Prop :=
  ∀ s : State, s.seq = .busy →
    ∃ t, completeOp s = .next t ∧ t.seq = .idle ∧ t.status.busy = false ∧ t.status.done = true ∧
      t.status.agrees = true

/-- 70_reset_and_hazards.md R409: a BUSY block eventually ends its operation, by completing or by a reset, after at most
the steps the agenda holds and one more. That the agenda is finite is the model's (log 6). -/
def Obligations.BusyOperationEventuallyEnds : Prop :=
  ∀ s u : State, s.seq = .busy → Host.Core.run Sys2Proof.core (s.agenda.length + 1) s = .next u →
    ∃ (k : Nat) (t : State), k ≤ s.agenda.length + 1 ∧ Host.Core.run Sys2Proof.core k s = .next t ∧ t.seq = .idle

/-! ### The host's accesses to the spaces -/

/-- 00_scope.md R14, 20_memory.md R50, R58: a host write of a sample, outside the windows not yet seen DONE, is read back
as a signed 16-bit value; it changes no byte but its two and no register. -/
def Obligations.HostSampleWriteLands : Prop :=
  ∀ (s : State) (a : Nat) (v : BitVec 16), a < s.params.sampleWords →
    s.meetsUnseen false (sampleByteAddr s.params a) 2 = false →
    ∃ t, hostAction (.mwS a v) s = .next t ∧ t.sample a = v.toInt ∧
      (∀ x : Nat, x < sampleByteAddr s.params a ∨ sampleByteAddr s.params a + 2 ≤ x →
        t.smem.read x = s.smem.read x) ∧
      t.cmem = s.cmem ∧
      (s.seq = .busy → t.hist = s.smem :: s.hist) ∧
      t = { s with smem := t.smem, hist := t.hist, raced := t.raced }

/-- 20_memory.md R58 item 5, 70_reset_and_hazards.md R405: an agent's write of a coefficient leaves its own value or,
before DONE is seen, the value of an operation on record for that element; outside the windows of such operations it
lands. During BUSY the element is raced, with the written value as its writer's. No other element changes. (The access is
the model's, log 7; the record of racing writes is log 9; that the hazard lasts after completion, and which operation's
value counts, is log 10.) -/
def Obligations.CoefficientWriteLandsOrNot : Prop :=
  ∀ (s : State) (a : Nat) (v : Word), a < s.params.coefWords →
    ∃ t, hostAction (.mwC a v) s = .next t ∧
      (t.coef a = wrap s.params.nativeBits v.toInt ∨
        ∃ w ∈ s.unseen, ∃ x : Int, w.base ≤ a ∧ w.values[a - w.base]? = some x ∧
          t.coef a = wrap s.params.nativeBits x) ∧
      (s.meetsUnseen true (coefByteAddr s.params a) s.params.native.bytes = false →
        t.coef a = wrap s.params.nativeBits v.toInt) ∧
      (∀ b : Nat, b ≠ a → t.coef b = s.coef b) ∧
      (s.seq = .busy → t.coefRaced a = true ∧ t.writerCoef a = wrap s.params.nativeBits v.toInt) ∧
      t.status = s.status ∧ t.inBase = s.inBase ∧ t.inStride = s.inStride ∧ t.outBase = s.outBase ∧
      t.work = s.work ∧ (s.params.platform = .separate → t.smem = s.smem)

/-- 20_memory.md R58 items 4 and 5, 70_reset_and_hazards.md R405: a host read of a coefficient outside the windows of a
running operation and of operations not yet seen DONE returns what the space holds; inside one it returns some L-bit
value. Memory and registers stay. (The host variable's form is the model's, log 12.) -/
def Obligations.CoefficientReadsAreTrueAfterDone : Prop :=
  ∀ (s : State) (dst a : Nat), a < s.params.coefWords →
    ∃ x : Int, hostAction (.mrC dst a) s = .next ((s.setHostVar dst (BitVec.ofInt 32 x)).drawn 1) ∧
      fits s.params.nativeBits x ∧
      (s.meetsRunning true (coefByteAddr s.params a) s.params.native.bytes = false →
        s.meetsUnseen true (coefByteAddr s.params a) s.params.native.bytes = false → x = s.coef a)

/-- 20_memory.md R58 item 4, 70_reset_and_hazards.md R405: while idle, a STATUS read that returns DONE = 1 makes every
coefficient read after it return what the space holds. -/
def Obligations.DoneReadPublishesTheResults : Prop :=
  ∀ s : State, s.seq = .idle → s.status.done = true → ∀ dst : Nat,
    ∃ t, hostAction (.readReg dst .status) s = .next t ∧ t.hostVar dst = s.status.word ∧
      ∀ e a : Nat, a < s.params.coefWords →
        hostAction (.mrC e a) t = .next ((t.setHostVar e (BitVec.ofInt 32 (s.coef a))).drawn 1)

/-- 10_state.md R36: a host access to an element its space does not have faults (log 8). -/
def Obligations.HostAccessOutsideTheSpacesFaults : Prop :=
  ∀ (s : State) (dst a : Nat) (h : BitVec 16) (v : Word),
    (s.params.sampleWords ≤ a →
      hostAction (.mwS a h) s = .fault .noSuchElement ∧ hostAction (.mrS dst a) s = .fault .noSuchElement) ∧
    (s.params.coefWords ≤ a →
      hostAction (.mwC a v) s = .fault .noSuchElement ∧ hostAction (.mrC dst a) s = .fault .noSuchElement)

/-- 30_encoding.md R87: labels and branches: the branch is taken iff `dst & mask` is not 0 (`bnz`) or is 0 (`bz`), to
the first place of the label; nothing but the host's place changes. -/
def Obligations.HostBranchesFollowTheMask : Prop :=
  ∀ (s : State) (x l n : Nat) (mask : Word), s.host.prog[n]? = some (.label l) →
    (∀ j < n, s.host.prog[j]? ≠ some (.label l)) →
    hostAction (.label l) s = .next s ∧
    hostAction (.bnz x mask l) s =
      .next (if s.hostVar x &&& mask = 0#32 then s else { s with host := { s.host with pc := n } }) ∧
    hostAction (.bz x mask l) s =
      .next (if s.hostVar x &&& mask = 0#32 then { s with host := { s.host with pc := n } } else s)
end

