-- ==== Sys2Proof/Laws/Arithmetic.lean ====
section
/-! SUPPORT. The width primitives and the stages as functions: when a check passes, and what comes out. -/

namespace Sys2Proof

theorem pow2_pos (n : Nat) : 0 < pow2 n := by
  unfold pow2; exact_mod_cast Nat.two_pow_pos n

theorem pow2_succ (n : Nat) : pow2 (n + 1) = 2 * pow2 n := by
  unfold pow2; rw [pow_succ]; push_cast; ring

theorem pow2_mono {m n : Nat} (h : m ≤ n) : pow2 m ≤ pow2 n := by
  unfold pow2; exact_mod_cast Nat.pow_le_pow_right (by decide) h

theorem fits_mono {m n : Nat} (h : m ≤ n) {v : Int} (hv : fits m v) : fits n v := by
  have := pow2_mono (Nat.sub_le_sub_right h 1)
  exact ⟨by have := hv.1; omega, by have := hv.2; omega⟩

/-- `wrap_N` fits N bits (00_scope.md R11). -/
theorem fits_wrap {n : Nat} (hn : 0 < n) (v : Int) : fits n (wrap n v) := by
  obtain ⟨k, rfl⟩ : ∃ k, n = k + 1 := ⟨n - 1, by omega⟩
  have hp := pow2_pos k
  have h2 : ((2 ^ (k + 1) : Nat) : Int) = 2 * pow2 k := pow2_succ k
  have h0 : 0 < 2 ^ (k + 1) := Nat.two_pow_pos _
  have hl := Int.le_bmod (x := v) (m := 2 ^ (k + 1)) h0
  have hu := Int.bmod_lt (x := v) (m := 2 ^ (k + 1)) h0
  rw [h2] at hl hu
  unfold wrap
  simp only [fits, Nat.add_sub_cancel]
  omega

/-- `wrap_N` leaves a value that fits alone. -/
theorem wrap_of_fits {n : Nat} (hn : 0 < n) {v : Int} (h : fits n v) : wrap n v = v := by
  obtain ⟨k, rfl⟩ : ∃ k, n = k + 1 := ⟨n - 1, by omega⟩
  have hp := pow2_pos k
  have h2 : ((2 ^ (k + 1) : Nat) : Int) = 2 * pow2 k := pow2_succ k
  simp only [fits, Nat.add_sub_cancel] at h
  unfold wrap
  apply Int.bmod_eq_of_le
  · rw [h2]; omega
  · rw [h2]; omega

theorem wrap_emod (n : Nat) (v : Int) : wrap n (v % pow2 n) = wrap n v := by
  unfold wrap pow2; exact Int.emod_bmod v (2 ^ n)

/-- The low bits of a value that fits, read back as two's complement, give the value. -/
theorem sext_emod {n : Nat} (hn : 0 < n) {v : Int} (h : fits n v) : sext n ((v % pow2 n).toNat) = v := by
  unfold sext
  rw [Int.toNat_of_nonneg (Int.emod_nonneg _ (by have := pow2_pos n; omega)), wrap_emod, wrap_of_fits hn h]

theorem fits_sext {n : Nat} (hn : 0 < n) (b : Nat) : fits n (sext n b) := fits_wrap hn _

theorem Params.nativeBits_pos (p : Params) : 0 < p.nativeBits := by
  cases hp : p.native <;> simp [Params.nativeBits, NativeWidth.bits, hp]

theorem Params.workingBits_pos (p : Params) : 0 < p.workingBits := by
  cases hp : p.working <;> simp [Params.workingBits, WorkingWidth.bits, hp]

theorem Params.native_le_working (p : Params) : p.nativeBits ≤ p.workingBits := by
  cases hn : p.native <;> cases hp : p.working <;>
    simp [Params.nativeBits, NativeWidth.bits, Params.workingBits, WorkingWidth.bits, hn, hp]

theorem Params.native_bytes (p : Params) : 256 ^ p.native.bytes = 2 ^ p.nativeBits := by
  cases hn : p.native <;> simp [Params.nativeBits, NativeWidth.bits, NativeWidth.bytes, hn]

theorem checkW_eq_some {p : Params} {v w : Int} : checkW p v = some w ↔ fits p.workingBits v ∧ w = v := by
  unfold checkW
  split
  · rename_i h; exact ⟨fun e => ⟨h, (Option.some.inj e).symm⟩, fun e => by rw [e.2]⟩
  · rename_i h; simp [h]

theorem checkW_of_fits {p : Params} {v : Int} (h : fits p.workingBits v) : checkW p v = some v :=
  checkW_eq_some.2 ⟨h, rfl⟩

theorem checkW_eq_none {p : Params} {v : Int} : checkW p v = none ↔ ¬ fits p.workingBits v := by
  unfold checkW; split <;> simp_all

theorem narrow_of_fits {p : Params} {v : Int} (h : fits p.nativeBits v) : narrow p v = some v := by
  unfold narrow; rw [if_pos h]

/-- What NARROW stores fits L bits (40_arithmetic.md R102). -/
theorem narrow_fits {p : Params} {v w : Int} (h : narrow p v = some w) : fits p.nativeBits w := by
  unfold narrow at h
  split at h
  · cases h; assumption
  · split at h
    · cases h
    · cases h; exact fits_wrap p.nativeBits_pos v

theorem roundShift_eq_some {p : Params} {v y : Int} :
    roundShift p v = some y ↔
      fits p.workingBits (v + pow2 (p.radix - 1)) ∧ y = (v + pow2 (p.radix - 1)) / pow2 p.radix := by
  unfold roundShift asr
  cases h : checkW p (v + pow2 (p.radix - 1)) with
  | none => simp [checkW_eq_none.1 h]
  | some u =>
    obtain ⟨hf, rfl⟩ := checkW_eq_some.1 h
    exact ⟨fun e => ⟨hf, (Option.some.inj e).symm⟩, fun e => by rw [e.2]⟩

/-- FINAL_NORM's result always fits L bits (45_final_normalization.md R200). -/
theorem fits_normalizeValue {n : Nat} (hn : 2 ≤ n) {v : Int} (h : fits n v) : fits n (normalizeValue v) := by
  obtain ⟨k, rfl⟩ : ∃ k, n = k + 2 := ⟨n - 2, by omega⟩
  have hp := pow2_pos k
  have h2 := pow2_succ k
  simp only [fits, normalizeValue, asr, show k + 2 - 1 = k + 1 by omega] at h ⊢
  have : pow2 2 = 4 := by decide
  rw [this]
  omega

end Sys2Proof
end

