-- ==== Sys2Proof/Laws/Butterfly.lean ====
section
/-! SUPPORT. The butterfly's one spec lemma: the values it checks, and what it gives when all of them fit. -/

namespace Sys2Proof.Machine

open Sys2Proof

/-- The butterfly's values as exact integers, no check applied (42_butterfly.md R140). -/
def butterflyExact (p : Params) (a : Vec4 Int) : Butterfly :=
  let s0 := a.v0 + a.v3
  let s1 := a.v1 + a.v2
  let s2 := a.v1 - a.v2
  let s3 := a.v0 - a.v3
  let t0 := (s0 + s1) * p.c16
  let t1 := (s0 - s1) * p.c16
  let t2 := s2 * p.c24 + s3 * p.c8
  let t3 := -s2 * p.c8 + s3 * p.c24
  let rnd (t : Int) : Int := (t + pow2 (p.radix - 1)) / pow2 p.radix
  { a := a
    s := ⟨s0, s1, s2, s3⟩
    e0 := s0 + s1
    e1 := s0 - s1
    s2c24 := s2 * p.c24
    s3c8 := s3 * p.c8
    negS2 := -s2
    negS2c8 := -s2 * p.c8
    s3c24 := s3 * p.c24
    t := ⟨t0, t1, t2, t3⟩
    y := ⟨rnd t0, rnd t2, rnd t1, rnd t3⟩ }

/-- Every value the butterfly checks, in its order (40_arithmetic.md R101). -/
def butterflyChecked (p : Params) (a : Vec4 Int) : List Int :=
  let b := butterflyExact p a
  let half := pow2 (p.radix - 1)
  [a.v0, a.v1, a.v2, a.v3, b.s.v0, b.s.v1, b.s.v2, b.s.v3, b.e0, b.e1, b.t.v0, b.t.v1, b.s2c24, b.s3c8, b.t.v2,
    b.negS2, b.negS2c8, b.s3c24, b.t.v3, b.t.v0 + half, b.t.v2 + half, b.t.v1 + half, b.t.v3 + half]

theorem bind_checkW {α : Type} (p : Params) (v : Int) (f : Int → Option α) :
    (checkW p v >>= f) = if fits p.workingBits v then f v else none := by
  unfold checkW
  split <;> rfl

theorem bind_roundShift {α : Type} (p : Params) (v : Int) (f : Int → Option α) :
    (roundShift p v >>= f) =
      if fits p.workingBits (v + pow2 (p.radix - 1)) then f ((v + pow2 (p.radix - 1)) / pow2 p.radix) else none := by
  unfold roundShift checkW asr
  split <;> rename_i h
  · rw [if_pos (by by_contra hn; rw [if_neg hn] at h; cases h)]
    split at h
    · cases h; rfl
    · cases h
  · rw [if_neg (by intro hn; rw [if_pos hn] at h; cases h)]
    rfl

/-- The butterfly gives its exact values if every value it checks fits W bits, and E_OVF otherwise. -/
theorem butterfly_eq (p : Params) (a : Vec4 Int) :
    butterfly p a = if ∀ v ∈ butterflyChecked p a, fits p.workingBits v then some (butterflyExact p a) else none := by
  have cons : ∀ (v : Int) (l : List Int) (x : Option Butterfly),
      (if ∀ w ∈ v :: l, fits p.workingBits w then x else none) =
        if fits p.workingBits v then (if ∀ w ∈ l, fits p.workingBits w then x else none) else none := by
    intro v l x
    by_cases hv : fits p.workingBits v <;> by_cases hl : ∀ w ∈ l, fits p.workingBits w
    · rw [if_pos (List.forall_mem_cons.2 ⟨hv, hl⟩), if_pos hv, if_pos hl]
    · rw [if_neg (fun h => hl (List.forall_mem_cons.1 h).2), if_pos hv, if_neg hl]
    · rw [if_neg (fun h => hv (List.forall_mem_cons.1 h).1), if_neg hv]
    · rw [if_neg (fun h => hv (List.forall_mem_cons.1 h).1), if_neg hv]
  have nil : ∀ x : Option Butterfly, (if ∀ w ∈ ([] : List Int), fits p.workingBits w then x else none) = x :=
    fun x => if_pos (by simp)
  unfold butterflyChecked
  dsimp only
  iterate 23 rw [cons]
  rw [nil]
  unfold butterfly
  iterate 19 rw [bind_checkW]
  iterate 4 rw [bind_roundShift]
  rfl

end Sys2Proof.Machine
end

