-- ==== Sys2Proof/Laws/Memory.lean ====
section
/-! SUPPORT. Tables, byte memory and elements: read after write, frames, the canonical form. -/

namespace Sys2Proof.Machine

open Sys2Proof

/-! ### Tables -/

section
variable {α : Type} (d : α)

theorem Table.find_erase (m : List (Nat × α)) (a b : Nat) :
    Table.find d (Table.erase m a) b = if b = a then d else Table.find d m b := by
  induction m with
  | nil => simp [Table.erase, Table.find]
  | cons c rest ih =>
    obtain ⟨k, v⟩ := c
    simp only [Table.erase] at ih
    by_cases hk : k = a
    · subst hk
      by_cases hb : b = k
      · subst hb; simpa [Table.erase, Table.find] using ih
      · simp [Table.erase, Table.find, hb, Ne.symm hb, ih]
    · by_cases hb : b = a
      · subst hb; simp [Table.erase, Table.find, hk, ih]
      · simp [Table.erase, Table.find, hk, hb, ih]

theorem Table.find_insert (m : List (Nat × α)) (a b : Nat) (v : α) :
    Table.find d (Table.insert m a v) b = if b = a then v else Table.find d m b := by
  induction m with
  | nil => simp [Table.insert, Table.find, eq_comm]
  | cons c rest ih =>
    obtain ⟨k, w⟩ := c
    simp only [Table.insert]
    by_cases hb : b = a
    · subst hb
      split
      · simp [Table.find]
      · split
        · simp [Table.find]
        · rename_i h1 h2
          simp [Table.find, Ne.symm h2, ih]
    · split
      · simp [Table.find, Ne.symm hb]
      · split
        · rename_i h; subst h; simp [Table.find, Ne.symm hb]
        · simp [Table.find, hb, ih]

theorem Table.find_put [DecidableEq α] (m : List (Nat × α)) (a b : Nat) (v : α) :
    Table.find d (Table.put d m a v) b = if b = a then v else Table.find d m b := by
  unfold Table.put
  split
  · rename_i h; subst h; exact Table.find_erase v m a b
  · exact Table.find_insert d m a b v

theorem Table.mem_insert {m : List (Nat × α)} {a : Nat} {v : α} {c : Nat × α}
    (h : c ∈ Table.insert m a v) : c = (a, v) ∨ c ∈ m := by
  induction m with
  | nil => simpa [Table.insert] using h
  | cons e rest ih =>
    obtain ⟨k, w⟩ := e
    simp only [Table.insert] at h
    split at h
    · simpa using h
    · split at h
      · rcases List.mem_cons.1 h with h | h
        · exact .inl h
        · exact .inr (List.mem_cons_of_mem _ h)
      · rcases List.mem_cons.1 h with h | h
        · exact .inr (by simp [h])
        · rcases ih h with h | h
          · exact .inl h
          · exact .inr (List.mem_cons_of_mem _ h)

theorem Table.insert_pairwise {m : List (Nat × α)} {a : Nat} {v : α}
    (h : m.Pairwise (fun c c' => c.1 < c'.1)) :
    (Table.insert m a v).Pairwise (fun c c' => c.1 < c'.1) := by
  induction m with
  | nil => simp [Table.insert]
  | cons e rest ih =>
    obtain ⟨k, w⟩ := e
    rw [List.pairwise_cons] at h
    simp only [Table.insert]
    split
    · rename_i hak
      refine List.pairwise_cons.2 ⟨fun c hc => ?_, List.pairwise_cons.2 h⟩
      rcases List.mem_cons.1 hc with rfl | hc
      · exact hak
      · exact Nat.lt_trans hak (h.1 c hc)
    · split
      · rename_i h2; subst h2; exact List.pairwise_cons.2 h
      · rename_i h1 h2
        refine List.pairwise_cons.2 ⟨fun c hc => ?_, ih h.2⟩
        rcases Table.mem_insert hc with rfl | hc
        · show k < a; omega
        · exact h.1 c hc

/-- A write keeps the canonical form. -/
theorem Table.put_wf [DecidableEq α] {m : List (Nat × α)} (h : Table.wf d m) (a : Nat) (v : α) :
    Table.wf d (Table.put d m a v) := by
  unfold Table.put
  split
  · refine ⟨h.1.sublist List.filter_sublist, fun c hc => h.2 c (List.mem_of_mem_filter hc)⟩
  · rename_i hv
    refine ⟨Table.insert_pairwise h.1, fun c hc => ?_⟩
    rcases Table.mem_insert hc with rfl | hc
    · exact hv
    · exact h.2 c hc

end

/-! ### Bytes -/

@[simp] theorem Memory.read_write (m : Memory) (a b : Nat) (v : Byte) :
    (m.write a v).read b = if b = a then v else m.read b :=
  Table.find_put unlistedByte m a b v

theorem Memory.write_wf {m : Memory} (h : m.wf) (a : Nat) (v : Byte) : (m.write a v).wf :=
  Table.put_wf unlistedByte h a v

theorem Memory.store_wf {m : Memory} (h : m.wf) (a : Nat) (bs : List Byte) : (m.store a bs).wf := by
  induction bs generalizing m a with
  | nil => exact h
  | cons b rest ih => exact ih (Memory.write_wf h a b) (a + 1)

/-- A store changes its own bytes only. -/
theorem Memory.read_store_outside (m : Memory) (a x : Nat) (bs : List Byte)
    (h : x < a ∨ a + bs.length ≤ x) : (m.store a bs).read x = m.read x := by
  induction bs generalizing m a with
  | nil => rfl
  | cons b rest ih =>
    simp only [List.length_cons] at h
    rw [Memory.store, ih (m.write a b) (a + 1) (by omega), Memory.read_write, if_neg (by omega)]

/-- A store is read back byte by byte. -/
theorem Memory.read_store_inside (m : Memory) (a i : Nat) (bs : List Byte) (h : i < bs.length) :
    (m.store a bs).read (a + i) = bs[i] := by
  induction bs generalizing m a i with
  | nil => simp at h
  | cons b rest ih =>
    cases i with
    | zero =>
      rw [Memory.store, Memory.read_store_outside _ _ _ _ (by omega)]
      simp
    | succ i =>
      have := ih (m.write a b) (a + 1) i (by simpa using h)
      simpa [Memory.store, Nat.add_assoc, Nat.add_comm 1 i] using this

@[simp] theorem Memory.length_load (m : Memory) (a n : Nat) : (m.load a n).length = n := by
  induction n generalizing a with
  | zero => rfl
  | succ n ih => simp [Memory.load, ih]

theorem Memory.load_congr {m m' : Memory} {a n : Nat}
    (h : ∀ x, a ≤ x → x < a + n → m.read x = m'.read x) : m.load a n = m'.load a n := by
  induction n generalizing a with
  | zero => rfl
  | succ n ih =>
    rw [Memory.load, Memory.load, h a (by omega) (by omega), ih fun x h1 h2 => h x (by omega) (by omega)]

theorem Memory.load_store (m : Memory) (a : Nat) (bs : List Byte) : (m.store a bs).load a bs.length = bs := by
  induction bs generalizing m a with
  | nil => rfl
  | cons b rest ih =>
    rw [Memory.store, List.length_cons, Memory.load, ih, Memory.read_store_outside _ _ _ _ (by omega)]
    simp

theorem Memory.load_store_apart (m : Memory) (a b n : Nat) (bs : List Byte)
    (h : b + n ≤ a ∨ a + bs.length ≤ b) : (m.store a bs).load b n = m.load b n :=
  Memory.load_congr fun x h1 h2 => Memory.read_store_outside m a x bs (by omega)

/-! ### Elements and their bytes -/

@[simp] theorem length_bytesOf (n v : Nat) : (bytesOf n v).length = n := by
  induction n generalizing v with
  | zero => rfl
  | succ n ih => simp [bytesOf, ih]

theorem numberOf_bytesOf (n v : Nat) : numberOf (bytesOf n v) = v % 256 ^ n := by
  induction n generalizing v with
  | zero => simp [bytesOf, numberOf, Nat.mod_one]
  | succ n ih =>
    rw [bytesOf, numberOf, ih, pow_succ, Nat.mul_comm (256 ^ n) 256, Nat.mod_mul]
    simp

@[simp] theorem length_elementBytes (o : ByteOrder) (n v : Nat) : (elementBytes o n v).length = n := by
  cases o <;> simp [elementBytes]

/-- Reading an element's bytes in the order they were written in gives the element (20_memory.md R50). -/
theorem bytesElement_elementBytes (o : ByteOrder) (n v : Nat) :
    bytesElement o (elementBytes o n v) = v % 256 ^ n := by
  cases o <;> simp [elementBytes, bytesElement, numberOf_bytesOf]

theorem numberOf_lt (bs : List Byte) : numberOf bs < 256 ^ bs.length := by
  induction bs with
  | nil => simp [numberOf]
  | cons b rest ih =>
    have := b.isLt
    simp only [numberOf, List.length_cons, pow_succ]
    omega

theorem bytesElement_lt (o : ByteOrder) (bs : List Byte) : bytesElement o bs < 256 ^ bs.length := by
  cases o with
  | little => exact numberOf_lt bs
  | big => simpa [bytesElement] using numberOf_lt bs.reverse

end Sys2Proof.Machine
end

