-- ==== Sys2Proof/Laws/State.lean ====
section
/-! SUPPORT. What each named update of State leaves in each field. -/

namespace Sys2Proof.Machine

open Sys2Proof

/-! ### State.drawn -/

@[simp] theorem State.drawn_params (s : State) (k : Nat) : (s.drawn k).params = s.params := rfl
@[simp] theorem State.drawn_inBase (s : State) (k : Nat) : (s.drawn k).inBase = s.inBase := rfl
@[simp] theorem State.drawn_inStride (s : State) (k : Nat) : (s.drawn k).inStride = s.inStride := rfl
@[simp] theorem State.drawn_outBase (s : State) (k : Nat) : (s.drawn k).outBase = s.outBase := rfl
@[simp] theorem State.drawn_latInBase (s : State) (k : Nat) : (s.drawn k).latInBase = s.latInBase := rfl
@[simp] theorem State.drawn_latInStride (s : State) (k : Nat) : (s.drawn k).latInStride = s.latInStride := rfl
@[simp] theorem State.drawn_latOutBase (s : State) (k : Nat) : (s.drawn k).latOutBase = s.latOutBase := rfl
@[simp] theorem State.drawn_status (s : State) (k : Nat) : (s.drawn k).status = s.status := rfl
@[simp] theorem State.drawn_seq (s : State) (k : Nat) : (s.drawn k).seq = s.seq := rfl
@[simp] theorem State.drawn_work (s : State) (k : Nat) : (s.drawn k).work = s.work := rfl
@[simp] theorem State.drawn_smem (s : State) (k : Nat) : (s.drawn k).smem = s.smem := rfl
@[simp] theorem State.drawn_cmem (s : State) (k : Nat) : (s.drawn k).cmem = s.cmem := rfl
@[simp] theorem State.drawn_hist (s : State) (k : Nat) : (s.drawn k).hist = s.hist := rfl
@[simp] theorem State.drawn_raced (s : State) (k : Nat) : (s.drawn k).raced = s.raced := rfl
@[simp] theorem State.drawn_unseen (s : State) (k : Nat) : (s.drawn k).unseen = s.unseen := rfl
@[simp] theorem State.drawn_draws (s : State) (k : Nat) : (s.drawn k).draws = s.draws + k := rfl
@[simp] theorem State.drawn_host (s : State) (k : Nat) : (s.drawn k).host = s.host := rfl
@[simp] theorem State.drawn_agenda (s : State) (k : Nat) : (s.drawn k).agenda = s.agenda := rfl

/-! ### State.finish -/

@[simp] theorem State.finish_params (s : State) (code : BitVec 4) (vs : List Int) : (s.finish code vs).params = s.params := rfl
@[simp] theorem State.finish_inBase (s : State) (code : BitVec 4) (vs : List Int) : (s.finish code vs).inBase = s.inBase := rfl
@[simp] theorem State.finish_inStride (s : State) (code : BitVec 4) (vs : List Int) : (s.finish code vs).inStride = s.inStride := rfl
@[simp] theorem State.finish_outBase (s : State) (code : BitVec 4) (vs : List Int) : (s.finish code vs).outBase = s.outBase := rfl
@[simp] theorem State.finish_latInBase (s : State) (code : BitVec 4) (vs : List Int) : (s.finish code vs).latInBase = s.latInBase := rfl
@[simp] theorem State.finish_latInStride (s : State) (code : BitVec 4) (vs : List Int) : (s.finish code vs).latInStride = s.latInStride := rfl
@[simp] theorem State.finish_latOutBase (s : State) (code : BitVec 4) (vs : List Int) : (s.finish code vs).latOutBase = s.latOutBase := rfl
@[simp] theorem State.finish_status (s : State) (code : BitVec 4) (vs : List Int) : (s.finish code vs).status = .completed code := rfl
@[simp] theorem State.finish_seq (s : State) (code : BitVec 4) (vs : List Int) : (s.finish code vs).seq = .idle := rfl
@[simp] theorem State.finish_work (s : State) (code : BitVec 4) (vs : List Int) : (s.finish code vs).work = freeWork s.params s.draws := rfl
@[simp] theorem State.finish_smem (s : State) (code : BitVec 4) (vs : List Int) : (s.finish code vs).smem = s.smem := rfl
@[simp] theorem State.finish_cmem (s : State) (code : BitVec 4) (vs : List Int) : (s.finish code vs).cmem = s.cmem := rfl
@[simp] theorem State.finish_hist (s : State) (code : BitVec 4) (vs : List Int) : (s.finish code vs).hist = [] := rfl
@[simp] theorem State.finish_raced (s : State) (code : BitVec 4) (vs : List Int) : (s.finish code vs).raced = [] := rfl
@[simp] theorem State.finish_unseen (s : State) (code : BitVec 4) (vs : List Int) : (s.finish code vs).unseen = ⟨s.operands.outBase, vs⟩ :: s.unseen := rfl
@[simp] theorem State.finish_draws (s : State) (code : BitVec 4) (vs : List Int) : (s.finish code vs).draws = s.draws + 103 := rfl
@[simp] theorem State.finish_host (s : State) (code : BitVec 4) (vs : List Int) : (s.finish code vs).host = s.host := rfl
@[simp] theorem State.finish_agenda (s : State) (code : BitVec 4) (vs : List Int) : (s.finish code vs).agenda = s.agenda := rfl

/-! ### State.accept -/

@[simp] theorem State.accept_params (s : State) : (s.accept).params = s.params := rfl
@[simp] theorem State.accept_inBase (s : State) : (s.accept).inBase = s.inBase := rfl
@[simp] theorem State.accept_inStride (s : State) : (s.accept).inStride = s.inStride := rfl
@[simp] theorem State.accept_outBase (s : State) : (s.accept).outBase = s.outBase := rfl
@[simp] theorem State.accept_latInBase (s : State) : (s.accept).latInBase = maskAddr s.params s.inBase := rfl
@[simp] theorem State.accept_latInStride (s : State) : (s.accept).latInStride = s.inStride := rfl
@[simp] theorem State.accept_latOutBase (s : State) : (s.accept).latOutBase = maskAddr s.params s.outBase := rfl
@[simp] theorem State.accept_status (s : State) : (s.accept).status = .accepted := rfl
@[simp] theorem State.accept_seq (s : State) : (s.accept).seq = .busy := rfl
@[simp] theorem State.accept_work (s : State) : (s.accept).work = s.work := rfl
@[simp] theorem State.accept_smem (s : State) : (s.accept).smem = s.smem := rfl
@[simp] theorem State.accept_cmem (s : State) : (s.accept).cmem = s.cmem := rfl
@[simp] theorem State.accept_hist (s : State) : (s.accept).hist = [] := rfl
@[simp] theorem State.accept_raced (s : State) : (s.accept).raced = [] := rfl
@[simp] theorem State.accept_unseen (s : State) : (s.accept).unseen = s.unseen := rfl
@[simp] theorem State.accept_draws (s : State) : (s.accept).draws = s.draws := rfl
@[simp] theorem State.accept_host (s : State) : (s.accept).host = s.host := rfl
@[simp] theorem State.accept_agenda (s : State) : (s.accept).agenda = s.agenda := rfl

/-! ### State.clearBlock -/

@[simp] theorem State.clearBlock_params (s : State) : (s.clearBlock).params = s.params := rfl
@[simp] theorem State.clearBlock_inBase (s : State) : (s.clearBlock).inBase = maskAddr s.params (freeWord s.draws) := rfl
@[simp] theorem State.clearBlock_inStride (s : State) : (s.clearBlock).inStride = freeWord (s.draws + 1) := rfl
@[simp] theorem State.clearBlock_outBase (s : State) : (s.clearBlock).outBase = maskAddr s.params (freeWord (s.draws + 2)) := rfl
@[simp] theorem State.clearBlock_latInBase (s : State) : (s.clearBlock).latInBase = maskAddr s.params (freeWord (s.draws + 3)) := rfl
@[simp] theorem State.clearBlock_latInStride (s : State) : (s.clearBlock).latInStride = freeWord (s.draws + 4) := rfl
@[simp] theorem State.clearBlock_latOutBase (s : State) : (s.clearBlock).latOutBase = maskAddr s.params (freeWord (s.draws + 5)) := rfl
@[simp] theorem State.clearBlock_status (s : State) : (s.clearBlock).status = .zero := rfl
@[simp] theorem State.clearBlock_seq (s : State) : (s.clearBlock).seq = .idle := rfl
@[simp] theorem State.clearBlock_work (s : State) : (s.clearBlock).work = freeWork s.params (s.draws + 6) := rfl
@[simp] theorem State.clearBlock_smem (s : State) : (s.clearBlock).smem = s.smem := rfl
@[simp] theorem State.clearBlock_cmem (s : State) : (s.clearBlock).cmem = s.cmem := rfl
@[simp] theorem State.clearBlock_hist (s : State) : (s.clearBlock).hist = [] := rfl
@[simp] theorem State.clearBlock_raced (s : State) : (s.clearBlock).raced = [] := rfl
@[simp] theorem State.clearBlock_unseen (s : State) : (s.clearBlock).unseen = s.unseen := rfl
@[simp] theorem State.clearBlock_draws (s : State) : (s.clearBlock).draws = s.draws + 109 := rfl
@[simp] theorem State.clearBlock_host (s : State) : (s.clearBlock).host = s.host := rfl
@[simp] theorem State.clearBlock_agenda (s : State) : (s.clearBlock).agenda = s.agenda := rfl

/-! ### State.hostNext -/

@[simp] theorem State.hostNext_params (s : State) : (s.hostNext).params = s.params := rfl
@[simp] theorem State.hostNext_inBase (s : State) : (s.hostNext).inBase = s.inBase := rfl
@[simp] theorem State.hostNext_inStride (s : State) : (s.hostNext).inStride = s.inStride := rfl
@[simp] theorem State.hostNext_outBase (s : State) : (s.hostNext).outBase = s.outBase := rfl
@[simp] theorem State.hostNext_latInBase (s : State) : (s.hostNext).latInBase = s.latInBase := rfl
@[simp] theorem State.hostNext_latInStride (s : State) : (s.hostNext).latInStride = s.latInStride := rfl
@[simp] theorem State.hostNext_latOutBase (s : State) : (s.hostNext).latOutBase = s.latOutBase := rfl
@[simp] theorem State.hostNext_status (s : State) : (s.hostNext).status = s.status := rfl
@[simp] theorem State.hostNext_seq (s : State) : (s.hostNext).seq = s.seq := rfl
@[simp] theorem State.hostNext_work (s : State) : (s.hostNext).work = s.work := rfl
@[simp] theorem State.hostNext_smem (s : State) : (s.hostNext).smem = s.smem := rfl
@[simp] theorem State.hostNext_cmem (s : State) : (s.hostNext).cmem = s.cmem := rfl
@[simp] theorem State.hostNext_hist (s : State) : (s.hostNext).hist = s.hist := rfl
@[simp] theorem State.hostNext_raced (s : State) : (s.hostNext).raced = s.raced := rfl
@[simp] theorem State.hostNext_unseen (s : State) : (s.hostNext).unseen = s.unseen := rfl
@[simp] theorem State.hostNext_draws (s : State) : (s.hostNext).draws = s.draws := rfl
@[simp] theorem State.hostNext_host (s : State) : (s.hostNext).host = { s.host with pc := s.host.pc + 1 } := rfl
@[simp] theorem State.hostNext_agenda (s : State) : (s.hostNext).agenda = s.agenda := rfl

/-! ### State.setHostVar -/

@[simp] theorem State.setHostVar_params (s : State) (x : Nat) (v : Word) : (s.setHostVar x v).params = s.params := rfl
@[simp] theorem State.setHostVar_inBase (s : State) (x : Nat) (v : Word) : (s.setHostVar x v).inBase = s.inBase := rfl
@[simp] theorem State.setHostVar_inStride (s : State) (x : Nat) (v : Word) : (s.setHostVar x v).inStride = s.inStride := rfl
@[simp] theorem State.setHostVar_outBase (s : State) (x : Nat) (v : Word) : (s.setHostVar x v).outBase = s.outBase := rfl
@[simp] theorem State.setHostVar_latInBase (s : State) (x : Nat) (v : Word) : (s.setHostVar x v).latInBase = s.latInBase := rfl
@[simp] theorem State.setHostVar_latInStride (s : State) (x : Nat) (v : Word) : (s.setHostVar x v).latInStride = s.latInStride := rfl
@[simp] theorem State.setHostVar_latOutBase (s : State) (x : Nat) (v : Word) : (s.setHostVar x v).latOutBase = s.latOutBase := rfl
@[simp] theorem State.setHostVar_status (s : State) (x : Nat) (v : Word) : (s.setHostVar x v).status = s.status := rfl
@[simp] theorem State.setHostVar_seq (s : State) (x : Nat) (v : Word) : (s.setHostVar x v).seq = s.seq := rfl
@[simp] theorem State.setHostVar_work (s : State) (x : Nat) (v : Word) : (s.setHostVar x v).work = s.work := rfl
@[simp] theorem State.setHostVar_smem (s : State) (x : Nat) (v : Word) : (s.setHostVar x v).smem = s.smem := rfl
@[simp] theorem State.setHostVar_cmem (s : State) (x : Nat) (v : Word) : (s.setHostVar x v).cmem = s.cmem := rfl
@[simp] theorem State.setHostVar_hist (s : State) (x : Nat) (v : Word) : (s.setHostVar x v).hist = s.hist := rfl
@[simp] theorem State.setHostVar_raced (s : State) (x : Nat) (v : Word) : (s.setHostVar x v).raced = s.raced := rfl
@[simp] theorem State.setHostVar_unseen (s : State) (x : Nat) (v : Word) : (s.setHostVar x v).unseen = s.unseen := rfl
@[simp] theorem State.setHostVar_draws (s : State) (x : Nat) (v : Word) : (s.setHostVar x v).draws = s.draws := rfl
@[simp] theorem State.setHostVar_host (s : State) (x : Nat) (v : Word) : (s.setHostVar x v).host = { s.host with vars := Table.put 0#32 s.host.vars x v } := rfl
@[simp] theorem State.setHostVar_agenda (s : State) (x : Nat) (v : Word) : (s.setHostVar x v).agenda = s.agenda := rfl

/-! ### The coefficient writes change the two memories only -/

@[simp] theorem State.setCoefMem_params (s : State) (m : Memory) : (s.setCoefMem m).params = s.params := by
  unfold State.setCoefMem; split <;> rfl
@[simp] theorem State.writeCoef_params (s : State) (a : Nat) (v : Int) : (s.writeCoef a v).params = s.params :=
  State.setCoefMem_params s _
@[simp] theorem State.writeCoefs_params (s : State) (a : Nat) (vs : List Int) : (s.writeCoefs a vs).params = s.params := by
  induction vs generalizing s a with
  | nil => rfl
  | cons v rest ih => simp [State.writeCoefs, ih]
@[simp] theorem State.setCoefMem_inBase (s : State) (m : Memory) : (s.setCoefMem m).inBase = s.inBase := by
  unfold State.setCoefMem; split <;> rfl
@[simp] theorem State.writeCoef_inBase (s : State) (a : Nat) (v : Int) : (s.writeCoef a v).inBase = s.inBase :=
  State.setCoefMem_inBase s _
@[simp] theorem State.writeCoefs_inBase (s : State) (a : Nat) (vs : List Int) : (s.writeCoefs a vs).inBase = s.inBase := by
  induction vs generalizing s a with
  | nil => rfl
  | cons v rest ih => simp [State.writeCoefs, ih]
@[simp] theorem State.setCoefMem_inStride (s : State) (m : Memory) : (s.setCoefMem m).inStride = s.inStride := by
  unfold State.setCoefMem; split <;> rfl
@[simp] theorem State.writeCoef_inStride (s : State) (a : Nat) (v : Int) : (s.writeCoef a v).inStride = s.inStride :=
  State.setCoefMem_inStride s _
@[simp] theorem State.writeCoefs_inStride (s : State) (a : Nat) (vs : List Int) : (s.writeCoefs a vs).inStride = s.inStride := by
  induction vs generalizing s a with
  | nil => rfl
  | cons v rest ih => simp [State.writeCoefs, ih]
@[simp] theorem State.setCoefMem_outBase (s : State) (m : Memory) : (s.setCoefMem m).outBase = s.outBase := by
  unfold State.setCoefMem; split <;> rfl
@[simp] theorem State.writeCoef_outBase (s : State) (a : Nat) (v : Int) : (s.writeCoef a v).outBase = s.outBase :=
  State.setCoefMem_outBase s _
@[simp] theorem State.writeCoefs_outBase (s : State) (a : Nat) (vs : List Int) : (s.writeCoefs a vs).outBase = s.outBase := by
  induction vs generalizing s a with
  | nil => rfl
  | cons v rest ih => simp [State.writeCoefs, ih]
@[simp] theorem State.setCoefMem_latInBase (s : State) (m : Memory) : (s.setCoefMem m).latInBase = s.latInBase := by
  unfold State.setCoefMem; split <;> rfl
@[simp] theorem State.writeCoef_latInBase (s : State) (a : Nat) (v : Int) : (s.writeCoef a v).latInBase = s.latInBase :=
  State.setCoefMem_latInBase s _
@[simp] theorem State.writeCoefs_latInBase (s : State) (a : Nat) (vs : List Int) : (s.writeCoefs a vs).latInBase = s.latInBase := by
  induction vs generalizing s a with
  | nil => rfl
  | cons v rest ih => simp [State.writeCoefs, ih]
@[simp] theorem State.setCoefMem_latInStride (s : State) (m : Memory) : (s.setCoefMem m).latInStride = s.latInStride := by
  unfold State.setCoefMem; split <;> rfl
@[simp] theorem State.writeCoef_latInStride (s : State) (a : Nat) (v : Int) : (s.writeCoef a v).latInStride = s.latInStride :=
  State.setCoefMem_latInStride s _
@[simp] theorem State.writeCoefs_latInStride (s : State) (a : Nat) (vs : List Int) : (s.writeCoefs a vs).latInStride = s.latInStride := by
  induction vs generalizing s a with
  | nil => rfl
  | cons v rest ih => simp [State.writeCoefs, ih]
@[simp] theorem State.setCoefMem_latOutBase (s : State) (m : Memory) : (s.setCoefMem m).latOutBase = s.latOutBase := by
  unfold State.setCoefMem; split <;> rfl
@[simp] theorem State.writeCoef_latOutBase (s : State) (a : Nat) (v : Int) : (s.writeCoef a v).latOutBase = s.latOutBase :=
  State.setCoefMem_latOutBase s _
@[simp] theorem State.writeCoefs_latOutBase (s : State) (a : Nat) (vs : List Int) : (s.writeCoefs a vs).latOutBase = s.latOutBase := by
  induction vs generalizing s a with
  | nil => rfl
  | cons v rest ih => simp [State.writeCoefs, ih]
@[simp] theorem State.setCoefMem_status (s : State) (m : Memory) : (s.setCoefMem m).status = s.status := by
  unfold State.setCoefMem; split <;> rfl
@[simp] theorem State.writeCoef_status (s : State) (a : Nat) (v : Int) : (s.writeCoef a v).status = s.status :=
  State.setCoefMem_status s _
@[simp] theorem State.writeCoefs_status (s : State) (a : Nat) (vs : List Int) : (s.writeCoefs a vs).status = s.status := by
  induction vs generalizing s a with
  | nil => rfl
  | cons v rest ih => simp [State.writeCoefs, ih]
@[simp] theorem State.setCoefMem_seq (s : State) (m : Memory) : (s.setCoefMem m).seq = s.seq := by
  unfold State.setCoefMem; split <;> rfl
@[simp] theorem State.writeCoef_seq (s : State) (a : Nat) (v : Int) : (s.writeCoef a v).seq = s.seq :=
  State.setCoefMem_seq s _
@[simp] theorem State.writeCoefs_seq (s : State) (a : Nat) (vs : List Int) : (s.writeCoefs a vs).seq = s.seq := by
  induction vs generalizing s a with
  | nil => rfl
  | cons v rest ih => simp [State.writeCoefs, ih]
@[simp] theorem State.setCoefMem_work (s : State) (m : Memory) : (s.setCoefMem m).work = s.work := by
  unfold State.setCoefMem; split <;> rfl
@[simp] theorem State.writeCoef_work (s : State) (a : Nat) (v : Int) : (s.writeCoef a v).work = s.work :=
  State.setCoefMem_work s _
@[simp] theorem State.writeCoefs_work (s : State) (a : Nat) (vs : List Int) : (s.writeCoefs a vs).work = s.work := by
  induction vs generalizing s a with
  | nil => rfl
  | cons v rest ih => simp [State.writeCoefs, ih]
@[simp] theorem State.setCoefMem_hist (s : State) (m : Memory) : (s.setCoefMem m).hist = s.hist := by
  unfold State.setCoefMem; split <;> rfl
@[simp] theorem State.writeCoef_hist (s : State) (a : Nat) (v : Int) : (s.writeCoef a v).hist = s.hist :=
  State.setCoefMem_hist s _
@[simp] theorem State.writeCoefs_hist (s : State) (a : Nat) (vs : List Int) : (s.writeCoefs a vs).hist = s.hist := by
  induction vs generalizing s a with
  | nil => rfl
  | cons v rest ih => simp [State.writeCoefs, ih]
@[simp] theorem State.setCoefMem_raced (s : State) (m : Memory) : (s.setCoefMem m).raced = s.raced := by
  unfold State.setCoefMem; split <;> rfl
@[simp] theorem State.writeCoef_raced (s : State) (a : Nat) (v : Int) : (s.writeCoef a v).raced = s.raced :=
  State.setCoefMem_raced s _
@[simp] theorem State.writeCoefs_raced (s : State) (a : Nat) (vs : List Int) : (s.writeCoefs a vs).raced = s.raced := by
  induction vs generalizing s a with
  | nil => rfl
  | cons v rest ih => simp [State.writeCoefs, ih]
@[simp] theorem State.setCoefMem_unseen (s : State) (m : Memory) : (s.setCoefMem m).unseen = s.unseen := by
  unfold State.setCoefMem; split <;> rfl
@[simp] theorem State.writeCoef_unseen (s : State) (a : Nat) (v : Int) : (s.writeCoef a v).unseen = s.unseen :=
  State.setCoefMem_unseen s _
@[simp] theorem State.writeCoefs_unseen (s : State) (a : Nat) (vs : List Int) : (s.writeCoefs a vs).unseen = s.unseen := by
  induction vs generalizing s a with
  | nil => rfl
  | cons v rest ih => simp [State.writeCoefs, ih]
@[simp] theorem State.setCoefMem_draws (s : State) (m : Memory) : (s.setCoefMem m).draws = s.draws := by
  unfold State.setCoefMem; split <;> rfl
@[simp] theorem State.writeCoef_draws (s : State) (a : Nat) (v : Int) : (s.writeCoef a v).draws = s.draws :=
  State.setCoefMem_draws s _
@[simp] theorem State.writeCoefs_draws (s : State) (a : Nat) (vs : List Int) : (s.writeCoefs a vs).draws = s.draws := by
  induction vs generalizing s a with
  | nil => rfl
  | cons v rest ih => simp [State.writeCoefs, ih]
@[simp] theorem State.setCoefMem_host (s : State) (m : Memory) : (s.setCoefMem m).host = s.host := by
  unfold State.setCoefMem; split <;> rfl
@[simp] theorem State.writeCoef_host (s : State) (a : Nat) (v : Int) : (s.writeCoef a v).host = s.host :=
  State.setCoefMem_host s _
@[simp] theorem State.writeCoefs_host (s : State) (a : Nat) (vs : List Int) : (s.writeCoefs a vs).host = s.host := by
  induction vs generalizing s a with
  | nil => rfl
  | cons v rest ih => simp [State.writeCoefs, ih]
@[simp] theorem State.setCoefMem_agenda (s : State) (m : Memory) : (s.setCoefMem m).agenda = s.agenda := by
  unfold State.setCoefMem; split <;> rfl
@[simp] theorem State.writeCoef_agenda (s : State) (a : Nat) (v : Int) : (s.writeCoef a v).agenda = s.agenda :=
  State.setCoefMem_agenda s _
@[simp] theorem State.writeCoefs_agenda (s : State) (a : Nat) (vs : List Int) : (s.writeCoefs a vs).agenda = s.agenda := by
  induction vs generalizing s a with
  | nil => rfl
  | cons v rest ih => simp [State.writeCoefs, ih]
/-! ### putBytes changes the two memories only -/

@[simp] theorem State.putBytes_params (s : State) (coef : Bool) (a : Nat) (bs : List Byte) :
    (s.putBytes coef a bs).params = s.params := by
  unfold State.putBytes; split <;> simp
@[simp] theorem State.putBytes_inBase (s : State) (coef : Bool) (a : Nat) (bs : List Byte) :
    (s.putBytes coef a bs).inBase = s.inBase := by
  unfold State.putBytes; split <;> simp
@[simp] theorem State.putBytes_inStride (s : State) (coef : Bool) (a : Nat) (bs : List Byte) :
    (s.putBytes coef a bs).inStride = s.inStride := by
  unfold State.putBytes; split <;> simp
@[simp] theorem State.putBytes_outBase (s : State) (coef : Bool) (a : Nat) (bs : List Byte) :
    (s.putBytes coef a bs).outBase = s.outBase := by
  unfold State.putBytes; split <;> simp
@[simp] theorem State.putBytes_latInBase (s : State) (coef : Bool) (a : Nat) (bs : List Byte) :
    (s.putBytes coef a bs).latInBase = s.latInBase := by
  unfold State.putBytes; split <;> simp
@[simp] theorem State.putBytes_latInStride (s : State) (coef : Bool) (a : Nat) (bs : List Byte) :
    (s.putBytes coef a bs).latInStride = s.latInStride := by
  unfold State.putBytes; split <;> simp
@[simp] theorem State.putBytes_latOutBase (s : State) (coef : Bool) (a : Nat) (bs : List Byte) :
    (s.putBytes coef a bs).latOutBase = s.latOutBase := by
  unfold State.putBytes; split <;> simp
@[simp] theorem State.putBytes_status (s : State) (coef : Bool) (a : Nat) (bs : List Byte) :
    (s.putBytes coef a bs).status = s.status := by
  unfold State.putBytes; split <;> simp
@[simp] theorem State.putBytes_seq (s : State) (coef : Bool) (a : Nat) (bs : List Byte) :
    (s.putBytes coef a bs).seq = s.seq := by
  unfold State.putBytes; split <;> simp
@[simp] theorem State.putBytes_work (s : State) (coef : Bool) (a : Nat) (bs : List Byte) :
    (s.putBytes coef a bs).work = s.work := by
  unfold State.putBytes; split <;> simp
@[simp] theorem State.putBytes_hist (s : State) (coef : Bool) (a : Nat) (bs : List Byte) :
    (s.putBytes coef a bs).hist = s.hist := by
  unfold State.putBytes; split <;> simp
@[simp] theorem State.putBytes_raced (s : State) (coef : Bool) (a : Nat) (bs : List Byte) :
    (s.putBytes coef a bs).raced = s.raced := by
  unfold State.putBytes; split <;> simp
@[simp] theorem State.putBytes_unseen (s : State) (coef : Bool) (a : Nat) (bs : List Byte) :
    (s.putBytes coef a bs).unseen = s.unseen := by
  unfold State.putBytes; split <;> simp
@[simp] theorem State.putBytes_draws (s : State) (coef : Bool) (a : Nat) (bs : List Byte) :
    (s.putBytes coef a bs).draws = s.draws := by
  unfold State.putBytes; split <;> simp
@[simp] theorem State.putBytes_host (s : State) (coef : Bool) (a : Nat) (bs : List Byte) :
    (s.putBytes coef a bs).host = s.host := by
  unfold State.putBytes; split <;> simp
@[simp] theorem State.putBytes_agenda (s : State) (coef : Bool) (a : Nat) (bs : List Byte) :
    (s.putBytes coef a bs).agenda = s.agenda := by
  unfold State.putBytes; split <;> simp
/-! ### noteSamples and noteRaced change one record of races each -/

@[simp] theorem State.noteSamples_params (s : State) (coef : Bool) : (s.noteSamples coef).params = s.params := by
  unfold State.noteSamples; split <;> rfl
@[simp] theorem State.noteRaced_params (s : State) (coef : Bool) (a : Nat) (bs : List Byte) :
    (s.noteRaced coef a bs).params = s.params := by
  unfold State.noteRaced; split <;> rfl
@[simp] theorem State.noteSamples_inBase (s : State) (coef : Bool) : (s.noteSamples coef).inBase = s.inBase := by
  unfold State.noteSamples; split <;> rfl
@[simp] theorem State.noteRaced_inBase (s : State) (coef : Bool) (a : Nat) (bs : List Byte) :
    (s.noteRaced coef a bs).inBase = s.inBase := by
  unfold State.noteRaced; split <;> rfl
@[simp] theorem State.noteSamples_inStride (s : State) (coef : Bool) : (s.noteSamples coef).inStride = s.inStride := by
  unfold State.noteSamples; split <;> rfl
@[simp] theorem State.noteRaced_inStride (s : State) (coef : Bool) (a : Nat) (bs : List Byte) :
    (s.noteRaced coef a bs).inStride = s.inStride := by
  unfold State.noteRaced; split <;> rfl
@[simp] theorem State.noteSamples_outBase (s : State) (coef : Bool) : (s.noteSamples coef).outBase = s.outBase := by
  unfold State.noteSamples; split <;> rfl
@[simp] theorem State.noteRaced_outBase (s : State) (coef : Bool) (a : Nat) (bs : List Byte) :
    (s.noteRaced coef a bs).outBase = s.outBase := by
  unfold State.noteRaced; split <;> rfl
@[simp] theorem State.noteSamples_latInBase (s : State) (coef : Bool) : (s.noteSamples coef).latInBase = s.latInBase := by
  unfold State.noteSamples; split <;> rfl
@[simp] theorem State.noteRaced_latInBase (s : State) (coef : Bool) (a : Nat) (bs : List Byte) :
    (s.noteRaced coef a bs).latInBase = s.latInBase := by
  unfold State.noteRaced; split <;> rfl
@[simp] theorem State.noteSamples_latInStride (s : State) (coef : Bool) : (s.noteSamples coef).latInStride = s.latInStride := by
  unfold State.noteSamples; split <;> rfl
@[simp] theorem State.noteRaced_latInStride (s : State) (coef : Bool) (a : Nat) (bs : List Byte) :
    (s.noteRaced coef a bs).latInStride = s.latInStride := by
  unfold State.noteRaced; split <;> rfl
@[simp] theorem State.noteSamples_latOutBase (s : State) (coef : Bool) : (s.noteSamples coef).latOutBase = s.latOutBase := by
  unfold State.noteSamples; split <;> rfl
@[simp] theorem State.noteRaced_latOutBase (s : State) (coef : Bool) (a : Nat) (bs : List Byte) :
    (s.noteRaced coef a bs).latOutBase = s.latOutBase := by
  unfold State.noteRaced; split <;> rfl
@[simp] theorem State.noteSamples_status (s : State) (coef : Bool) : (s.noteSamples coef).status = s.status := by
  unfold State.noteSamples; split <;> rfl
@[simp] theorem State.noteRaced_status (s : State) (coef : Bool) (a : Nat) (bs : List Byte) :
    (s.noteRaced coef a bs).status = s.status := by
  unfold State.noteRaced; split <;> rfl
@[simp] theorem State.noteSamples_seq (s : State) (coef : Bool) : (s.noteSamples coef).seq = s.seq := by
  unfold State.noteSamples; split <;> rfl
@[simp] theorem State.noteRaced_seq (s : State) (coef : Bool) (a : Nat) (bs : List Byte) :
    (s.noteRaced coef a bs).seq = s.seq := by
  unfold State.noteRaced; split <;> rfl
@[simp] theorem State.noteSamples_work (s : State) (coef : Bool) : (s.noteSamples coef).work = s.work := by
  unfold State.noteSamples; split <;> rfl
@[simp] theorem State.noteRaced_work (s : State) (coef : Bool) (a : Nat) (bs : List Byte) :
    (s.noteRaced coef a bs).work = s.work := by
  unfold State.noteRaced; split <;> rfl
@[simp] theorem State.noteSamples_smem (s : State) (coef : Bool) : (s.noteSamples coef).smem = s.smem := by
  unfold State.noteSamples; split <;> rfl
@[simp] theorem State.noteRaced_smem (s : State) (coef : Bool) (a : Nat) (bs : List Byte) :
    (s.noteRaced coef a bs).smem = s.smem := by
  unfold State.noteRaced; split <;> rfl
@[simp] theorem State.noteSamples_cmem (s : State) (coef : Bool) : (s.noteSamples coef).cmem = s.cmem := by
  unfold State.noteSamples; split <;> rfl
@[simp] theorem State.noteRaced_cmem (s : State) (coef : Bool) (a : Nat) (bs : List Byte) :
    (s.noteRaced coef a bs).cmem = s.cmem := by
  unfold State.noteRaced; split <;> rfl
@[simp] theorem State.noteRaced_hist (s : State) (coef : Bool) (a : Nat) (bs : List Byte) :
    (s.noteRaced coef a bs).hist = s.hist := by
  unfold State.noteRaced; split <;> rfl
@[simp] theorem State.noteSamples_raced (s : State) (coef : Bool) : (s.noteSamples coef).raced = s.raced := by
  unfold State.noteSamples; split <;> rfl
@[simp] theorem State.noteSamples_unseen (s : State) (coef : Bool) : (s.noteSamples coef).unseen = s.unseen := by
  unfold State.noteSamples; split <;> rfl
@[simp] theorem State.noteRaced_unseen (s : State) (coef : Bool) (a : Nat) (bs : List Byte) :
    (s.noteRaced coef a bs).unseen = s.unseen := by
  unfold State.noteRaced; split <;> rfl
@[simp] theorem State.noteSamples_draws (s : State) (coef : Bool) : (s.noteSamples coef).draws = s.draws := by
  unfold State.noteSamples; split <;> rfl
@[simp] theorem State.noteRaced_draws (s : State) (coef : Bool) (a : Nat) (bs : List Byte) :
    (s.noteRaced coef a bs).draws = s.draws := by
  unfold State.noteRaced; split <;> rfl
@[simp] theorem State.noteSamples_host (s : State) (coef : Bool) : (s.noteSamples coef).host = s.host := by
  unfold State.noteSamples; split <;> rfl
@[simp] theorem State.noteRaced_host (s : State) (coef : Bool) (a : Nat) (bs : List Byte) :
    (s.noteRaced coef a bs).host = s.host := by
  unfold State.noteRaced; split <;> rfl
@[simp] theorem State.noteSamples_agenda (s : State) (coef : Bool) : (s.noteSamples coef).agenda = s.agenda := by
  unfold State.noteSamples; split <;> rfl
@[simp] theorem State.noteRaced_agenda (s : State) (coef : Bool) (a : Nat) (bs : List Byte) :
    (s.noteRaced coef a bs).agenda = s.agenda := by
  unfold State.noteRaced; split <;> rfl
/-! ### land changes the memories and the records of races only -/

@[simp] theorem State.land_params (s : State) (coef : Bool) (a : Nat) (bs : List Byte) :
    (s.land coef a bs).params = s.params := by
  simp [State.land]
@[simp] theorem State.land_inBase (s : State) (coef : Bool) (a : Nat) (bs : List Byte) :
    (s.land coef a bs).inBase = s.inBase := by
  simp [State.land]
@[simp] theorem State.land_inStride (s : State) (coef : Bool) (a : Nat) (bs : List Byte) :
    (s.land coef a bs).inStride = s.inStride := by
  simp [State.land]
@[simp] theorem State.land_outBase (s : State) (coef : Bool) (a : Nat) (bs : List Byte) :
    (s.land coef a bs).outBase = s.outBase := by
  simp [State.land]
@[simp] theorem State.land_latInBase (s : State) (coef : Bool) (a : Nat) (bs : List Byte) :
    (s.land coef a bs).latInBase = s.latInBase := by
  simp [State.land]
@[simp] theorem State.land_latInStride (s : State) (coef : Bool) (a : Nat) (bs : List Byte) :
    (s.land coef a bs).latInStride = s.latInStride := by
  simp [State.land]
@[simp] theorem State.land_latOutBase (s : State) (coef : Bool) (a : Nat) (bs : List Byte) :
    (s.land coef a bs).latOutBase = s.latOutBase := by
  simp [State.land]
@[simp] theorem State.land_status (s : State) (coef : Bool) (a : Nat) (bs : List Byte) :
    (s.land coef a bs).status = s.status := by
  simp [State.land]
@[simp] theorem State.land_seq (s : State) (coef : Bool) (a : Nat) (bs : List Byte) :
    (s.land coef a bs).seq = s.seq := by
  simp [State.land]
@[simp] theorem State.land_work (s : State) (coef : Bool) (a : Nat) (bs : List Byte) :
    (s.land coef a bs).work = s.work := by
  simp [State.land]
@[simp] theorem State.land_unseen (s : State) (coef : Bool) (a : Nat) (bs : List Byte) :
    (s.land coef a bs).unseen = s.unseen := by
  simp [State.land]
@[simp] theorem State.land_draws (s : State) (coef : Bool) (a : Nat) (bs : List Byte) :
    (s.land coef a bs).draws = s.draws := by
  simp [State.land]
@[simp] theorem State.land_host (s : State) (coef : Bool) (a : Nat) (bs : List Byte) :
    (s.land coef a bs).host = s.host := by
  simp [State.land]
@[simp] theorem State.land_agenda (s : State) (coef : Bool) (a : Nat) (bs : List Byte) :
    (s.land coef a bs).agenda = s.agenda := by
  simp [State.land]
/-! ### restore changes the two memories only -/

@[simp] theorem State.restore_params (s : State) (es : List Nat) : (s.restore es).params = s.params := by
  induction es generalizing s with
  | nil => rfl
  | cons e rest ih =>
    unfold State.restore
    split <;> simp [ih]
@[simp] theorem State.restore_inBase (s : State) (es : List Nat) : (s.restore es).inBase = s.inBase := by
  induction es generalizing s with
  | nil => rfl
  | cons e rest ih =>
    unfold State.restore
    split <;> simp [ih]
@[simp] theorem State.restore_inStride (s : State) (es : List Nat) : (s.restore es).inStride = s.inStride := by
  induction es generalizing s with
  | nil => rfl
  | cons e rest ih =>
    unfold State.restore
    split <;> simp [ih]
@[simp] theorem State.restore_outBase (s : State) (es : List Nat) : (s.restore es).outBase = s.outBase := by
  induction es generalizing s with
  | nil => rfl
  | cons e rest ih =>
    unfold State.restore
    split <;> simp [ih]
@[simp] theorem State.restore_latInBase (s : State) (es : List Nat) : (s.restore es).latInBase = s.latInBase := by
  induction es generalizing s with
  | nil => rfl
  | cons e rest ih =>
    unfold State.restore
    split <;> simp [ih]
@[simp] theorem State.restore_latInStride (s : State) (es : List Nat) : (s.restore es).latInStride = s.latInStride := by
  induction es generalizing s with
  | nil => rfl
  | cons e rest ih =>
    unfold State.restore
    split <;> simp [ih]
@[simp] theorem State.restore_latOutBase (s : State) (es : List Nat) : (s.restore es).latOutBase = s.latOutBase := by
  induction es generalizing s with
  | nil => rfl
  | cons e rest ih =>
    unfold State.restore
    split <;> simp [ih]
@[simp] theorem State.restore_status (s : State) (es : List Nat) : (s.restore es).status = s.status := by
  induction es generalizing s with
  | nil => rfl
  | cons e rest ih =>
    unfold State.restore
    split <;> simp [ih]
@[simp] theorem State.restore_seq (s : State) (es : List Nat) : (s.restore es).seq = s.seq := by
  induction es generalizing s with
  | nil => rfl
  | cons e rest ih =>
    unfold State.restore
    split <;> simp [ih]
@[simp] theorem State.restore_work (s : State) (es : List Nat) : (s.restore es).work = s.work := by
  induction es generalizing s with
  | nil => rfl
  | cons e rest ih =>
    unfold State.restore
    split <;> simp [ih]
@[simp] theorem State.restore_hist (s : State) (es : List Nat) : (s.restore es).hist = s.hist := by
  induction es generalizing s with
  | nil => rfl
  | cons e rest ih =>
    unfold State.restore
    split <;> simp [ih]
@[simp] theorem State.restore_raced (s : State) (es : List Nat) : (s.restore es).raced = s.raced := by
  induction es generalizing s with
  | nil => rfl
  | cons e rest ih =>
    unfold State.restore
    split <;> simp [ih]
@[simp] theorem State.restore_unseen (s : State) (es : List Nat) : (s.restore es).unseen = s.unseen := by
  induction es generalizing s with
  | nil => rfl
  | cons e rest ih =>
    unfold State.restore
    split <;> simp [ih]
@[simp] theorem State.restore_draws (s : State) (es : List Nat) : (s.restore es).draws = s.draws := by
  induction es generalizing s with
  | nil => rfl
  | cons e rest ih =>
    unfold State.restore
    split <;> simp [ih]
@[simp] theorem State.restore_host (s : State) (es : List Nat) : (s.restore es).host = s.host := by
  induction es generalizing s with
  | nil => rfl
  | cons e rest ih =>
    unfold State.restore
    split <;> simp [ih]
@[simp] theorem State.restore_agenda (s : State) (es : List Nat) : (s.restore es).agenda = s.agenda := by
  induction es generalizing s with
  | nil => rfl
  | cons e rest ih =>
    unfold State.restore
    split <;> simp [ih]

end Sys2Proof.Machine
end

