-- ==== Sys2Proof/Laws/Spaces.lean ====
section
/-! SUPPORT. The two element spaces: what a coefficient write and a run of them leave in each element and byte. -/

namespace Sys2Proof.Machine

open Sys2Proof

@[simp] theorem length_coefBytes (p : Params) (v : Int) : (coefBytes p v).length = p.native.bytes := by
  simp [coefBytes]

theorem NativeWidth.bytes_pos (w : NativeWidth) : 0 < w.bytes := by cases w <;> decide

@[simp] theorem State.coefMem_setCoefMem (s : State) (m : Memory) : (s.setCoefMem m).coefMem = m := by
  unfold State.coefMem
  rw [State.setCoefMem_params]
  unfold State.setCoefMem
  split <;> rfl

/-- Different coefficient elements share no byte. -/
theorem coefByteAddr_apart (p : Params) {a b : Nat} (h : a < b) :
    coefByteAddr p a + p.native.bytes ≤ coefByteAddr p b := by
  have hm : p.native.bytes * a + p.native.bytes ≤ p.native.bytes * b := by
    rw [← Nat.mul_succ]; exact Nat.mul_le_mul_left _ h
  unfold coefByteAddr
  split <;> omega

theorem coefByteAddr_add (p : Params) (a i : Nat) :
    coefByteAddr p (a + i) = coefByteAddr p a + p.native.bytes * i := by
  unfold coefByteAddr
  split
  · rw [Nat.mul_add]
  · rw [Nat.mul_add]; omega

/-- A coefficient's bytes read as the low L bits of its value (20_memory.md R50), in either byte order. -/
theorem bytesElement_coefBytes (p : Params) (v : Int) :
    sext p.nativeBits (bytesElement p.byteOrder (coefBytes p v)) = wrap p.nativeBits v := by
  have h0 := pow2_pos p.nativeBits
  have hlt : pattern p.nativeBits v < 2 ^ p.nativeBits := by
    have h1 := Int.emod_nonneg v (ne_of_gt h0)
    have h2 := Int.emod_lt_of_pos v h0
    unfold pattern
    unfold pow2 at h1 h2 ⊢
    omega
  rw [coefBytes, bytesElement_elementBytes, Params.native_bytes, Nat.mod_eq_of_lt hlt]
  unfold sext pattern
  rw [Int.toNat_of_nonneg (Int.emod_nonneg _ (ne_of_gt h0)), wrap_emod]

theorem State.coef_writeCoef_wrap (s : State) (a : Nat) (v : Int) :
    (s.writeCoef a v).coef a = wrap s.params.nativeBits v := by
  unfold State.coef
  rw [State.writeCoef_params]
  unfold State.writeCoef
  rw [State.coefMem_setCoefMem]
  have hl := Memory.load_store s.coefMem (coefByteAddr s.params a) (coefBytes s.params v)
  rw [length_coefBytes] at hl
  rw [hl, bytesElement_coefBytes]

/-- A coefficient write is read back (00_scope.md R14), in either byte order and with either mapping. -/
theorem State.coef_writeCoef_same (s : State) (a : Nat) {v : Int} (h : fits s.params.nativeBits v) :
    (s.writeCoef a v).coef a = v := by
  rw [State.coef_writeCoef_wrap, wrap_of_fits s.params.nativeBits_pos h]

/-- A coefficient write changes its own bytes only. -/
theorem State.read_writeCoef_outside (s : State) (a x : Nat) (v : Int)
    (h : x < coefByteAddr s.params a ∨ coefByteAddr s.params a + s.params.native.bytes ≤ x) :
    (s.writeCoef a v).coefMem.read x = s.coefMem.read x := by
  unfold State.writeCoef
  rw [State.coefMem_setCoefMem, Memory.read_store_outside]
  simpa using h

theorem State.coef_congr {s t : State} {a : Nat} (hp : t.params = s.params)
    (h : ∀ x, coefByteAddr s.params a ≤ x → x < coefByteAddr s.params a + s.params.native.bytes →
      t.coefMem.read x = s.coefMem.read x) : t.coef a = s.coef a := by
  unfold State.coef
  rw [hp, Memory.load_congr h]

/-- A coefficient write leaves every other element. -/
theorem State.coef_writeCoef_other (s : State) (a b : Nat) (v : Int) (h : b ≠ a) :
    (s.writeCoef a v).coef b = s.coef b := by
  refine State.coef_congr (State.writeCoef_params s a v) fun x h1 h2 => State.read_writeCoef_outside s a x v ?_
  rcases Nat.lt_or_gt_of_ne h with h | h
  · have := coefByteAddr_apart s.params h; omega
  · have := coefByteAddr_apart s.params h; omega

/-- A run of coefficient writes changes the bytes of its window only. -/
theorem State.read_writeCoefs_outside (s : State) (a x : Nat) (vs : List Int)
    (h : x < coefByteAddr s.params a ∨ coefByteAddr s.params a + s.params.native.bytes * vs.length ≤ x) :
    (s.writeCoefs a vs).coefMem.read x = s.coefMem.read x := by
  induction vs generalizing s a with
  | nil => rfl
  | cons v rest ih =>
    have e := coefByteAddr_add s.params a 1
    rw [Nat.mul_one] at e
    rw [List.length_cons, Nat.mul_succ] at h
    rw [State.writeCoefs, ih, State.read_writeCoef_outside]
    · omega
    · rw [State.writeCoef_params, e]; omega

/-- A run of coefficient writes leaves every element outside its window. -/
theorem State.coef_writeCoefs_outside (s : State) (a b : Nat) (vs : List Int)
    (h : b < a ∨ a + vs.length ≤ b) : (s.writeCoefs a vs).coef b = s.coef b := by
  induction vs generalizing s a with
  | nil => rfl
  | cons v rest ih =>
    rw [List.length_cons] at h
    rw [State.writeCoefs, ih _ _ (by omega), State.coef_writeCoef_other _ _ _ _ (by omega)]

/-- A run of coefficient writes is read back element by element. -/
theorem State.coef_writeCoefs_inside (s : State) (a i : Nat) (vs : List Int) (hi : i < vs.length)
    (h : ∀ v ∈ vs, fits s.params.nativeBits v) : (s.writeCoefs a vs).coef (a + i) = vs[i] := by
  induction vs generalizing s a i with
  | nil => simp at hi
  | cons v rest ih =>
    rw [State.writeCoefs]
    cases i with
    | zero =>
      rw [State.coef_writeCoefs_outside _ _ _ _ (by omega)]
      exact State.coef_writeCoef_same s a (h v (by simp))
    | succ i =>
      have := ih (s.writeCoef a v) (a + 1) i (by simpa using hi)
        (by rw [State.writeCoef_params]; exact fun w hw => h w (by simp [hw]))
      simpa [Nat.add_assoc, Nat.add_comm 1 i] using this

/-- With separate spaces the coefficient writes leave the sample memory alone. -/
theorem State.writeCoefs_smem_separate (s : State) (hp : s.params.platform = .separate) (a : Nat) (vs : List Int) :
    (s.writeCoefs a vs).smem = s.smem := by
  induction vs generalizing s a with
  | nil => rfl
  | cons v rest ih =>
    rw [State.writeCoefs, ih _ (by rw [State.writeCoef_params]; exact hp)]
    unfold State.writeCoef State.setCoefMem
    rw [hp]

/-- On a shared memory the coefficient store is the sample memory. -/
theorem State.coefMem_shared (s : State) (hp : s.params.isShared = true) : s.coefMem = s.smem := by
  unfold State.coefMem
  unfold Params.isShared at hp
  split <;> simp_all

theorem State.coefMem_separate (s : State) (hp : s.params.platform = .separate) : s.coefMem = s.cmem := by
  unfold State.coefMem; rw [hp]

/-- A run of coefficient writes leaves every byte of the sample memory outside the window, with either mapping. -/
theorem State.smem_writeCoefs_outside (s : State) (a x : Nat) (vs : List Int)
    (h : s.params.isShared = true →
      x < coefByteAddr s.params a ∨ coefByteAddr s.params a + s.params.native.bytes * vs.length ≤ x) :
    (s.writeCoefs a vs).smem.read x = s.smem.read x := by
  cases hp : s.params.platform with
  | separate => rw [State.writeCoefs_smem_separate s hp]
  | shared sb cb =>
    have hs : s.params.isShared = true := by unfold Params.isShared; rw [hp]
    rw [← State.coefMem_shared s hs, ← State.coefMem_shared (s.writeCoefs a vs) (by simpa using hs)]
    exact State.read_writeCoefs_outside s a x vs (h hs)

theorem sampleIn_congr (p : Params) {m m' : Memory} {a : Nat}
    (h : ∀ x, sampleByteAddr p a ≤ x → x < sampleByteAddr p a + 2 → m.read x = m'.read x) :
    sampleIn p m a = sampleIn p m' a := by
  unfold sampleIn; rw [Memory.load_congr h]

/-- A sample is a signed 16-bit value (00_scope.md R14). -/
theorem fits_sampleIn (p : Params) (m : Memory) (a : Nat) : fits 16 (sampleIn p m a) :=
  fits_sext (by decide) _

/-- The coefficient writes keep the canonical form of both memories. -/
theorem State.writeCoefs_wf (s : State) (a : Nat) (vs : List Int) (h1 : s.smem.wf) (h2 : s.cmem.wf) :
    (s.writeCoefs a vs).smem.wf ∧ (s.writeCoefs a vs).cmem.wf := by
  induction vs generalizing s a with
  | nil => exact ⟨h1, h2⟩
  | cons v rest ih =>
    rw [State.writeCoefs]
    apply ih
    · unfold State.writeCoef State.setCoefMem State.coefMem
      split
      · exact h1
      · exact Memory.store_wf h1 _ _
    · unfold State.writeCoef State.setCoefMem State.coefMem
      split
      · exact Memory.store_wf h2 _ _
      · exact h2

/-- So does an agent's write. -/
theorem State.putBytes_wf (s : State) (coef : Bool) (a : Nat) (bs : List Byte) (h1 : s.smem.wf) (h2 : s.cmem.wf) :
    (s.putBytes coef a bs).smem.wf ∧ (s.putBytes coef a bs).cmem.wf := by
  unfold State.putBytes
  split
  · unfold State.setCoefMem State.coefMem
    split
    · exact ⟨h1, Memory.store_wf h2 _ _⟩
    · exact ⟨Memory.store_wf h1 _ _, h2⟩
  · exact ⟨Memory.store_wf h1 _ _, h2⟩

/-! ### Ended operations' values in the elements again -/

theorem State.restore_wf (s : State) (es : List Nat) (h1 : s.smem.wf) (h2 : s.cmem.wf) :
    (s.restore es).smem.wf ∧ (s.restore es).cmem.wf := by
  induction es generalizing s with
  | nil => exact ⟨h1, h2⟩
  | cons e rest ih =>
    unfold State.restore
    split
    · rename_i v _
      have h := State.writeCoefs_wf s e [v] h1 h2
      exact ih _ h.1 h.2
    · exact ih s h1 h2

theorem State.restore_smem_separate (s : State) (hp : s.params.platform = .separate) (es : List Nat) :
    (s.restore es).smem = s.smem := by
  induction es generalizing s with
  | nil => rfl
  | cons e rest ih =>
    unfold State.restore
    split
    · rename_i v _
      rw [ih _ (by simpa using hp)]
      exact State.writeCoefs_smem_separate s hp e [v]
    · exact ih s hp

theorem State.coef_restore_other (s : State) (b : Nat) (es : List Nat) (h : b ∉ es) :
    (s.restore es).coef b = s.coef b := by
  induction es generalizing s with
  | nil => rfl
  | cons e rest ih =>
    rw [List.mem_cons, not_or] at h
    unfold State.restore
    split
    · rw [ih _ h.2, State.coef_writeCoef_other s e b _ h.1]
    · exact ih s h.2

theorem State.operationValue_congr {s t : State} (h : t.unseen = s.unseen) (e : Nat) :
    t.operationValue e = s.operationValue e := by
  unfold State.operationValue; rw [h]

/-- A restored element holds its operation's value, or stays where there is none. -/
theorem State.coef_restore_same (s : State) (a : Nat) (es : List Nat) :
    (s.restore es).coef a = s.coef a ∨
      ∃ x, s.operationValue a = some x ∧ (s.restore es).coef a = wrap s.params.nativeBits x := by
  induction es generalizing s with
  | nil => exact .inl rfl
  | cons e rest ih =>
    unfold State.restore
    split
    · rename_i v hv
      by_cases ha : a = e
      · subst ha
        have hc : (s.writeCoef a v).coef a = wrap s.params.nativeBits v := State.coef_writeCoef_wrap s a v
        rcases ih (s.writeCoef a v) with h | ⟨x, hx, h⟩
        · exact .inr ⟨v, hv, h.trans hc⟩
        · rw [State.operationValue_congr (State.writeCoef_unseen s a v)] at hx
          exact .inr ⟨x, hx, by rw [h, State.writeCoef_params]⟩
      · rcases ih (s.writeCoef e v) with h | ⟨x, hx, h⟩
        · exact .inl (h.trans (State.coef_writeCoef_other s e a v ha))
        · rw [State.operationValue_congr (State.writeCoef_unseen s e v)] at hx
          exact .inr ⟨x, hx, by rw [h, State.writeCoef_params]⟩
    · exact ih s

/-- Bytes of one coefficient element meet no other element (20_memory.md R51). -/
theorem State.mem_unseenElements (s : State) {a e : Nat}
    (h : e ∈ s.unseenElements (coefByteAddr s.params a) s.params.native.bytes) : e = a := by
  unfold State.unseenElements at h
  have hm := (List.mem_filter.1 h).2
  simp only [rangesMeet, Bool.and_eq_true, decide_eq_true_eq] at hm
  rcases Nat.lt_trichotomy e a with hl | he | hl
  · have := coefByteAddr_apart s.params hl; omega
  · exact he
  · have := coefByteAddr_apart s.params hl; omega

/-! ### The address check and the overlap, entry by entry -/

theorem forall_fin_four {q : Fin 4 → Prop} : (∀ k, q k) ↔ q 0 ∧ q 1 ∧ q 2 ∧ q 3 := by
  constructor
  · exact fun h => ⟨h 0, h 1, h 2, h 3⟩
  · rintro ⟨h0, h1, h2, h3⟩ k
    fin_cases k <;> assumption

theorem Blk.all_ofFn {α : Type} (f : α → Bool) (g : Fin 4 → Fin 4 → α) :
    Blk.all f (Blk.ofFn g) = true ↔ ∀ r c, f (g r c) = true := by
  simp only [Blk.all, Vec4.all, Blk.ofFn, Vec4.ofFn, Bool.and_eq_true, forall_fin_four, and_assoc]

theorem Blk.any_ofFn {α : Type} (f : α → Bool) (g : Fin 4 → Fin 4 → α) :
    Blk.any f (Blk.ofFn g) = true ↔ ∃ r c, f (g r c) = true := by
  have h : Blk.any f (Blk.ofFn g) = !Blk.all (fun x => !f x) (Blk.ofFn g) := by
    simp only [Blk.any, Vec4.any, Blk.all, Vec4.all, Blk.ofFn, Vec4.ofFn, Bool.not_and, Bool.not_not]
  rw [h, Bool.not_eq_true', ← Bool.not_eq_true, Blk.all_ofFn]
  simp

/-- The address check, address by address (60_exceptions.md R302). -/
theorem Operands.addressOk_iff (p : Params) (o : Operands) :
    o.addressOk p = true ↔
      (∀ r c, 0 ≤ o.sampleAddr r c ∧ o.sampleAddr r c < (p.sampleWords : Int)) ∧ o.outBase + 15 < p.coefWords := by
  unfold Operands.addressOk
  rw [Bool.and_eq_true, Blk.all_ofFn]
  simp only [inSampleSpace, Bool.and_eq_true, decide_eq_true_eq]

end Sys2Proof.Machine
end

