-- ==== Sys2Proof/Laws/Operation.lean ====
section
/-! SUPPORT. The shared operations of an operation's run: raising an error, going on, and the run of the
micro-operations against the pure function FDCT (46_transform.md R225). -/

namespace Sys2Proof.Machine

open Sys2Proof

/-! ### Going on, and stopping -/

theorem andThen_next_busy {t : State} (f : State → Host.Outcome State Fault Refusal) (h : t.seq = .busy) :
    andThen (.next t) f = f t := by
  simp only [andThen, h]

theorem andThen_next_idle {t : State} (f : State → Host.Outcome State Fault Refusal) (h : t.seq = .idle) :
    andThen (.next t) f = .next t := by
  simp only [andThen, h]

theorem inOperation_busy {s : State} (k : Host.Outcome State Fault Refusal) (h : s.seq = .busy) :
    inOperation s k = k := by
  simp only [inOperation, h]

theorem inOperation_idle {s : State} (k : Host.Outcome State Fault Refusal) (h : s.seq = .idle) :
    inOperation s k = .refused .noOperation := by
  simp only [inOperation, h]

/-! ### Raising an error: everything it can do -/

theorem State.raiseError_badCmd (s : State) :
    s.raiseError .badCmd = { s with status := .completed 1#4 } := rfl

theorem State.raiseError_addr (s : State) : s.raiseError .addr = s.finish 2#4 [] := rfl

theorem State.raiseError_ovf (s : State) : s.raiseError .ovf = s.freeWindow.finish 3#4 s.freeCoefs := rfl

@[simp] theorem State.raiseError_ovf_seq (s : State) : (s.raiseError .ovf).seq = .idle := rfl

@[simp] theorem State.raiseError_addr_seq (s : State) : (s.raiseError .addr).seq = .idle := rfl

@[simp] theorem State.length_freeCoefs (s : State) : s.freeCoefs.length = 16 := by
  simp [State.freeCoefs]

/-- The window's free values leave every coefficient element outside it. -/
theorem State.coef_freeWindow_outside (s : State) (b : Nat)
    (h : b < s.operands.outBase ∨ s.operands.outBase + 16 ≤ b) : s.freeWindow.coef b = s.coef b := by
  have := State.coef_writeCoefs_outside s s.operands.outBase b
    (s.freeCoefs.take (s.params.coefWords - s.operands.outBase)) (by simp; omega)
  rw [← this]
  rfl

/-! ### A run that fails leaves E_OVF -/

/-- The state an overflow ends in, whatever was computed before it. -/
def EndsInOverflow (s : State) (o : Host.Outcome State Fault Refusal) : Prop :=
  ∃ w, o = .next (State.raiseError { s with work := w } .ovf)

/-- A step followed by the rest of the run. -/
theorem runSteps_cons (f : State → Host.Outcome State Fault Refusal)
    (rest : List (State → Host.Outcome State Fault Refusal)) (s : State) :
    runSteps (f :: rest) s = andThen (f s) (runSteps rest) := rfl

theorem runSteps_narrow {s : State} (hb : s.seq = .busy) (lane : Lane) (k : Fin 4)
    (rest : List (State → Host.Outcome State Fault Refusal)) :
    runSteps (execNarrow lane k :: rest) s =
      match narrow s.params (s.work.bf.y.get k) with
      | some v => runSteps rest { s with work := s.work.storeLane lane k v }
      | none => .next (s.raiseError .ovf) := by
  rw [runSteps_cons, execNarrow, inOperation_busy _ hb]
  cases narrow s.params (s.work.bf.y.get k) with
  | none => exact andThen_next_idle _ rfl
  | some v => exact andThen_next_busy _ hb

theorem runSteps_bfly4 {s : State} (hb : s.seq = .busy) (lane : Lane)
    (rest : List (State → Host.Outcome State Fault Refusal)) :
    runSteps (execBfly4 lane :: rest) s =
      match butterfly s.params (s.work.lane lane) with
      | some b => runSteps rest { s with work := { s.work with bf := b } }
      | none => .next (s.raiseError .ovf) := by
  rw [runSteps_cons, execBfly4, inOperation_busy _ hb]
  cases butterfly s.params (s.work.lane lane) with
  | none => exact andThen_next_idle _ rfl
  | some v => exact andThen_next_busy _ hb

/-- A lane's result in the working storage: `I` row c in pass 1, `Z` row r in pass 2. -/
def Work.storeVec (w : Work) (lane : Lane) (v : Vec4 Int) : Work :=
  match lane with
  | .column c => { w with i := w.i.set c v }
  | .row r => { w with z := w.z.set r v }

theorem Work.storeLane_four (w : Work) (lane : Lane) (v : Vec4 Int) :
    (((w.storeLane lane 0 v.v0).storeLane lane 1 v.v1).storeLane lane 2 v.v2).storeLane lane 3 v.v3
      = w.storeVec lane v := by
  cases lane with
  | column c => fin_cases c <;> rfl
  | row r => fin_cases r <;> rfl

@[simp] theorem Work.storeLane_bf (w : Work) (lane : Lane) (k : Fin 4) (v : Int) :
    (w.storeLane lane k v).bf = w.bf := by
  cases lane <;> rfl

/-- One lane of a pass: its narrowed butterfly goes to its row, or the operation ends in E_OVF. -/
theorem runSteps_lane {s : State} (hb : s.seq = .busy) (lane : Lane)
    (rest : List (State → Host.Outcome State Fault Refusal)) :
    (∀ v, bfly4Narrow s.params (s.work.lane lane) = some v →
      ∃ b, runSteps (laneSteps lane ++ rest) s =
        runSteps rest { s with work := { s.work with bf := b }.storeVec lane v }) ∧
    (bfly4Narrow s.params (s.work.lane lane) = none →
      EndsInOverflow s (runSteps (laneSteps lane ++ rest) s)) := by
  have e : laneSteps lane ++ rest =
      execBfly4 lane :: execNarrow lane 0 :: execNarrow lane 1 :: execNarrow lane 2 :: execNarrow lane 3 :: rest := rfl
  rw [e, runSteps_bfly4 hb]
  unfold bfly4Narrow bfly4
  cases hbf : butterfly s.params (s.work.lane lane) with
  | none => exact ⟨by simp, fun _ => ⟨s.work, rfl⟩⟩
  | some b =>
    simp only [Option.map_some, Vec4.mapO]
    rw [runSteps_narrow (by exact hb)]
    show _ ∧ _
    dsimp only [Vec4.get]
    cases h0 : narrow s.params b.y.v0 with
    | none => exact ⟨by simp, fun _ => ⟨_, rfl⟩⟩
    | some y0 =>
      dsimp only
      rw [runSteps_narrow (by exact hb)]
      dsimp only [Work.storeLane_bf, Vec4.get]
      simp only [Work.storeLane_bf]
      cases h1 : narrow s.params b.y.v1 with
      | none => exact ⟨by simp, fun _ => ⟨_, rfl⟩⟩
      | some y1 =>
        dsimp only
        rw [runSteps_narrow (by exact hb)]
        dsimp only [Vec4.get]
        simp only [Work.storeLane_bf]
        cases h2 : narrow s.params b.y.v2 with
        | none => exact ⟨by simp, fun _ => ⟨_, rfl⟩⟩
        | some y2 =>
          dsimp only
          rw [runSteps_narrow (by exact hb)]
          dsimp only [Vec4.get]
          simp only [Work.storeLane_bf]
          cases h3 : narrow s.params b.y.v3 with
          | none => exact ⟨by simp, fun _ => ⟨_, rfl⟩⟩
          | some y3 =>
            refine ⟨fun v hv => ⟨b, ?_⟩, by simp⟩
            cases hv
            dsimp only
            rw [← Work.storeLane_four { s.work with bf := b } lane ⟨y0, y1, y2, y3⟩]

/-! ### The samples an operation reads -/

/-- Every sample the block reads is a signed 16-bit value. -/
theorem State.fits_blockSample (s : State) (k a : Nat) : fits 16 (s.blockSample k a) := by
  unfold State.blockSample State.sample
  split <;> exact fits_sampleIn _ _ _

/-- `checkW` never fails on a pre-scaled sample (41_load_scale.md R120). -/
theorem scaleSample_of_fits (p : Params) {x : Int} (h : fits 16 x) : scaleSample p x = some (16 * x) := by
  apply checkW_of_fits
  have h32 : 32 ≤ p.workingBits := by
    cases hp : p.working <;> simp [Params.workingBits, WorkingWidth.bits, hp]
  apply fits_mono h32
  have h15 : pow2 (16 - 1) = 32768 := by decide
  have h31 : pow2 (32 - 1) = 2147483648 := by decide
  simp only [fits, h15, h31, prescale] at h ⊢
  omega

/-- LOAD_SCALE cannot overflow: P is 16 times the window (41_load_scale.md R120). -/
theorem scaleBlock_window (s : State) : scaleBlock s.params s.window = some (Blk.map (16 * ·) s.window) := by
  simp only [scaleBlock, Blk.mapO, Blk.map, State.window, Blk.ofFn, Vec4.ofFn, Vec4.mapO, Vec4.map,
    scaleSample_of_fits s.params (State.fits_blockSample s _ _)]

theorem runSteps_loadScale {s : State} (hb : s.seq = .busy) (hok : s.operands.addressOk s.params = true)
    (rest : List (State → Host.Outcome State Fault Refusal)) :
    runSteps (execLoadScale :: rest) s =
      runSteps rest (({ s with work := { s.work with p := Blk.map (16 * ·) s.window } } : State).drawn 16) := by
  rw [runSteps_cons, execLoadScale, inOperation_busy _ hb, if_pos hok, scaleBlock_window]
  exact andThen_next_busy _ hb

theorem runSteps_dcNudge {s : State} (hb : s.seq = .busy) (rest : List (State → Host.Outcome State Fault Refusal)) :
    runSteps (execDcNudge :: rest) s =
      runSteps rest { s with work := { s.work with p := nudge s.work.p } } := by
  rw [runSteps_cons, execDcNudge, inOperation_busy _ hb]
  exact andThen_next_busy _ hb

theorem runSteps_transpose {s : State} (hb : s.seq = .busy) (rest : List (State → Host.Outcome State Fault Refusal)) :
    runSteps (execTranspose :: rest) s =
      runSteps rest { s with work := { s.work with t := Blk.transposed s.work.i } } := by
  rw [runSteps_cons, execTranspose, inOperation_busy _ hb]
  exact andThen_next_busy _ hb

/-- One pass: the four narrowed butterflies of its lanes, or E_OVF. -/
theorem runSteps_pass {s : State} (hb : s.seq = .busy) (l : Fin 4 → Lane)
    (hl : (∀ k, l k = .column k) ∨ (∀ k, l k = .row k))
    (rest : List (State → Host.Outcome State Fault Refusal)) :
    (∀ m, Vec4.mapO (bfly4Narrow s.params)
        ⟨s.work.lane (l 0), s.work.lane (l 1), s.work.lane (l 2), s.work.lane (l 3)⟩ = some m →
      ∃ b, runSteps (laneSteps (l 0) ++ (laneSteps (l 1) ++ (laneSteps (l 2) ++ (laneSteps (l 3) ++ rest)))) s =
        runSteps rest { s with work := (((({ s.work with bf := b }.storeVec (l 0) m.v0).storeVec (l 1) m.v1).storeVec
          (l 2) m.v2).storeVec (l 3) m.v3) }) ∧
    (Vec4.mapO (bfly4Narrow s.params)
        ⟨s.work.lane (l 0), s.work.lane (l 1), s.work.lane (l 2), s.work.lane (l 3)⟩ = none →
      EndsInOverflow s
        (runSteps (laneSteps (l 0) ++ (laneSteps (l 1) ++ (laneSteps (l 2) ++ (laneSteps (l 3) ++ rest)))) s)) := by
  have lane_bf : ∀ (w : Work) (b : Butterfly) (x : Lane), ({ w with bf := b } : Work).lane x = w.lane x := by
    intro w b x; cases x <;> rfl
  have lane_store : ∀ (w : Work) (j k : Fin 4) (v : Vec4 Int), (w.storeVec (l j) v).lane (l k) = w.lane (l k) := by
    intro w j k v
    rcases hl with hl | hl <;> rw [hl j, hl k] <;> rfl
  obtain ⟨h0, n0⟩ := runSteps_lane hb (l 0) (laneSteps (l 1) ++ (laneSteps (l 2) ++ (laneSteps (l 3) ++ rest)))
  unfold Vec4.mapO
  dsimp only
  cases e0 : bfly4Narrow s.params (s.work.lane (l 0)) with
  | none => exact ⟨by simp, fun _ => n0 e0⟩
  | some v0 =>
    obtain ⟨b0, r0⟩ := h0 v0 e0
    rw [r0]
    obtain ⟨h1, n1⟩ := runSteps_lane (s := { s with work := { s.work with bf := b0 }.storeVec (l 0) v0 }) hb (l 1)
      (laneSteps (l 2) ++ (laneSteps (l 3) ++ rest))
    dsimp only at h1 n1
    rw [lane_store, lane_bf] at h1 n1
    cases e1 : bfly4Narrow s.params (s.work.lane (l 1)) with
    | none => exact ⟨by simp, fun _ => n1 e1⟩
    | some v1 =>
      obtain ⟨b1, r1⟩ := h1 v1 e1
      rw [r1]
      obtain ⟨h2, n2⟩ := runSteps_lane
        (s := { s with work := { { s.work with bf := b0 }.storeVec (l 0) v0 with bf := b1 }.storeVec (l 1) v1 }) hb (l 2)
        (laneSteps (l 3) ++ rest)
      dsimp only at h2 n2
      rw [lane_store, lane_bf, lane_store, lane_bf] at h2 n2
      cases e2 : bfly4Narrow s.params (s.work.lane (l 2)) with
      | none => exact ⟨by simp, fun _ => n2 e2⟩
      | some v2 =>
        obtain ⟨b2, r2⟩ := h2 v2 e2
        rw [r2]
        obtain ⟨h3, n3⟩ := runSteps_lane
          (s := { s with work := { { { s.work with bf := b0 }.storeVec (l 0) v0 with bf := b1 }.storeVec (l 1) v1
            with bf := b2 }.storeVec (l 2) v2 }) hb (l 3) rest
        dsimp only at h3 n3
        rw [lane_store, lane_bf, lane_store, lane_bf, lane_store, lane_bf] at h3 n3
        cases e3 : bfly4Narrow s.params (s.work.lane (l 3)) with
        | none => exact ⟨by simp, fun _ => n3 e3⟩
        | some v3 =>
          obtain ⟨b3, r3⟩ := h3 v3 e3
          refine ⟨fun m hm => ⟨b3, ?_⟩, by simp⟩
          cases hm
          rw [r3]
          rcases hl with hl | hl <;> rw [hl 0, hl 1, hl 2, hl 3] <;> rfl

/-- The run of the micro-operations computes FDCT of the samples read, or ends in E_OVF where FDCT does
(46_transform.md R221, R225). -/
theorem runSteps_transform {s : State} (hb : s.seq = .busy) (hok : s.operands.addressOk s.params = true) :
    (∀ o, fdct s.params s.window = some o →
      ∃ w, w.o = o ∧ runSteps transformSteps s = .next (({ s with work := w } : State).drawn 16)) ∧
    (fdct s.params s.window = none → EndsInOverflow (s.drawn 16) (runSteps transformSteps s)) := by
  have e : transformSteps = execLoadScale :: execDcNudge ::
      (laneSteps (.column 0) ++ (laneSteps (.column 1) ++ (laneSteps (.column 2) ++ (laneSteps (.column 3) ++
        (execTranspose :: (laneSteps (.row 0) ++ (laneSteps (.row 1) ++ (laneSteps (.row 2) ++ (laneSteps (.row 3) ++
          [execFinalNorm]))))))))) := rfl
  rw [e, runSteps_loadScale hb hok, runSteps_dcNudge (by exact hb)]
  unfold fdct
  rw [scaleBlock_window]
  dsimp only [Option.bind_eq_bind, Option.bind]
  obtain ⟨h1, n1⟩ := runSteps_pass
    (s := { (({ s with work := { s.work with p := Blk.map (16 * ·) s.window } } : State).drawn 16) with
      work := { (({ s with work := { s.work with p := Blk.map (16 * ·) s.window } } : State).drawn 16).work with
        p := nudge (({ s with work := { s.work with p := Blk.map (16 * ·) s.window } } : State).drawn 16).work.p } })
    hb Lane.column (.inl fun _ => rfl)
    (execTranspose :: (laneSteps (.row 0) ++ (laneSteps (.row 1) ++ (laneSteps (.row 2) ++ (laneSteps (.row 3) ++
      [execFinalNorm])))))
  dsimp only [State.drawn, Work.lane] at h1 n1 ⊢
  cases e1 : Vec4.mapO (bfly4Narrow s.params) ⟨(nudge (Blk.map (16 * ·) s.window)).col 0,
      (nudge (Blk.map (16 * ·) s.window)).col 1, (nudge (Blk.map (16 * ·) s.window)).col 2,
      (nudge (Blk.map (16 * ·) s.window)).col 3⟩ with
  | none => exact ⟨by simp, fun _ => n1 e1⟩
  | some i =>
    obtain ⟨b1, r1⟩ := h1 i e1
    rw [r1, runSteps_transpose (by exact hb)]
    obtain ⟨h2, n2⟩ := runSteps_pass
      (s := { s with
        work := { s.work with p := nudge (Blk.map (16 * ·) s.window), i := i, t := Blk.transposed i, bf := b1 }
        draws := s.draws + 16 })
      hb Lane.row (.inr fun _ => rfl) [execFinalNorm]
    dsimp only [Work.lane] at h2 n2
    have ei : (⟨(Blk.transposed i).row 0, (Blk.transposed i).row 1, (Blk.transposed i).row 2,
        (Blk.transposed i).row 3⟩ : Vec4 (Vec4 Int)) = Blk.transposed i := rfl
    rw [ei] at h2 n2
    dsimp only
    cases e2 : Vec4.mapO (bfly4Narrow s.params) (Blk.transposed i) with
    | none => exact ⟨by simp, fun _ => n2 e2⟩
    | some z =>
      obtain ⟨b2, r2⟩ := h2 z e2
      have last : ∀ u : State, u.seq = .busy → runSteps [execFinalNorm] u =
          .next { u with work := { u.work with o := finalNorm u.work.z } } := by
        intro u hu
        rw [runSteps_cons, execFinalNorm, inOperation_busy _ hu, andThen_next_busy _ (by exact hu)]
        rfl
      refine ⟨fun o ho => ?_, by simp⟩
      cases ho
      exact ⟨_, by rfl, Eq.trans r2 (last _ hb)⟩

/-! ### The completion step: everything it can do -/

/-- While BUSY the completion step ends in E_ADDR, in the commit of FDCT of the samples read, or in E_OVF
(46_transform.md R221). -/
theorem completeOp_cases {s : State} (hb : s.seq = .busy) :
    (s.operands.addressOk s.params = false ∧ completeOp s = .next (s.raiseError .addr)) ∨
    (s.operands.addressOk s.params = true ∧ ∃ o w, fdct s.params s.window = some o ∧ w.o = o ∧
      completeOp s = .next (({ s with work := w } : State).drawn 16).commit) ∨
    (s.operands.addressOk s.params = true ∧ fdct s.params s.window = none ∧ ∃ w,
      completeOp s = .next ((({ s with work := w } : State).drawn 16).raiseError .ovf)) := by
  have e : completeOp s = if s.operands.addressOk s.params then
      andThen (runSteps transformSteps s) fun t => .next t.commit else .next (s.raiseError .addr) := by
    unfold completeOp; rw [hb]
  cases hok : s.operands.addressOk s.params with
  | false => exact .inl ⟨rfl, by rw [e, hok]; rfl⟩
  | true =>
    refine .inr ?_
    rw [e, if_pos hok]
    obtain ⟨h1, h2⟩ := runSteps_transform hb hok
    cases hf : fdct s.params s.window with
    | some o =>
      obtain ⟨w, hw, hr⟩ := h1 o hf
      exact .inl ⟨rfl, o, w, rfl, hw, by rw [hr]; exact andThen_next_busy _ (by exact hb)⟩
    | none =>
      obtain ⟨w, hr⟩ := h2 hf
      exact .inr ⟨rfl, rfl, w, by rw [hr]; exact andThen_next_idle _ rfl⟩

/-- While idle the block does not step (10_state.md R20). -/
theorem completeOp_idle {s : State} (h : s.seq = .idle) : completeOp s = .next s := by
  unfold completeOp; rw [h]

end Sys2Proof.Machine
end

