-- ==== Sys2Proof/Laws/Commit.lean ====
section
/-! SUPPORT. The commit and the free window: what they leave in each field, element and byte; FDCT's results fit. -/

namespace Sys2Proof.Machine

open Sys2Proof

/-! ### Fields -/

@[simp] theorem State.commit_params (s : State) : s.commit.params = s.params := by
  simp [State.commit]
@[simp] theorem State.commit_inBase (s : State) : s.commit.inBase = s.inBase := by
  simp [State.commit]
@[simp] theorem State.commit_inStride (s : State) : s.commit.inStride = s.inStride := by
  simp [State.commit]
@[simp] theorem State.commit_outBase (s : State) : s.commit.outBase = s.outBase := by
  simp [State.commit]
@[simp] theorem State.commit_latInBase (s : State) : s.commit.latInBase = s.latInBase := by
  simp [State.commit]
@[simp] theorem State.commit_latInStride (s : State) : s.commit.latInStride = s.latInStride := by
  simp [State.commit]
@[simp] theorem State.commit_latOutBase (s : State) : s.commit.latOutBase = s.latOutBase := by
  simp [State.commit]
@[simp] theorem State.commit_status (s : State) : s.commit.status = .completed 0#4 := by
  simp only [State.commit, State.finish_status]
@[simp] theorem State.commit_seq (s : State) : s.commit.seq = .idle := by
  simp only [State.commit, State.finish_seq]
@[simp] theorem State.commit_work (s : State) : s.commit.work = freeWork s.params (s.draws + 16) := by
  simp [State.commit]
@[simp] theorem State.commit_smem (s : State) : s.commit.smem = (s.writeCoefs s.operands.outBase s.committed).smem := by
  simp only [State.commit, State.finish_smem, State.drawn_smem]
@[simp] theorem State.commit_cmem (s : State) : s.commit.cmem = (s.writeCoefs s.operands.outBase s.committed).cmem := by
  simp only [State.commit, State.finish_cmem, State.drawn_cmem]
@[simp] theorem State.commit_hist (s : State) : s.commit.hist = [] := by
  simp only [State.commit, State.finish_hist]
@[simp] theorem State.commit_raced (s : State) : s.commit.raced = [] := by
  simp only [State.commit, State.finish_raced]
@[simp] theorem State.commit_unseen (s : State) :
    s.commit.unseen = ⟨s.operands.outBase, Blk.flat s.work.o⟩ :: s.unseen := by
  simp [State.commit, State.operands]
@[simp] theorem State.commit_draws (s : State) : s.commit.draws = s.draws + 119 := by
  simp [State.commit]
@[simp] theorem State.commit_host (s : State) : s.commit.host = s.host := by
  simp [State.commit]
@[simp] theorem State.commit_agenda (s : State) : s.commit.agenda = s.agenda := by
  simp [State.commit]

@[simp] theorem State.freeWindow_params (s : State) : s.freeWindow.params = s.params := by
  simp [State.freeWindow]
@[simp] theorem State.freeWindow_inBase (s : State) : s.freeWindow.inBase = s.inBase := by
  simp [State.freeWindow]
@[simp] theorem State.freeWindow_inStride (s : State) : s.freeWindow.inStride = s.inStride := by
  simp [State.freeWindow]
@[simp] theorem State.freeWindow_outBase (s : State) : s.freeWindow.outBase = s.outBase := by
  simp [State.freeWindow]
@[simp] theorem State.freeWindow_latInBase (s : State) : s.freeWindow.latInBase = s.latInBase := by
  simp [State.freeWindow]
@[simp] theorem State.freeWindow_latInStride (s : State) : s.freeWindow.latInStride = s.latInStride := by
  simp [State.freeWindow]
@[simp] theorem State.freeWindow_latOutBase (s : State) : s.freeWindow.latOutBase = s.latOutBase := by
  simp [State.freeWindow]
@[simp] theorem State.freeWindow_status (s : State) : s.freeWindow.status = s.status := by
  simp [State.freeWindow]
@[simp] theorem State.freeWindow_seq (s : State) : s.freeWindow.seq = s.seq := by
  simp [State.freeWindow]
@[simp] theorem State.freeWindow_work (s : State) : s.freeWindow.work = s.work := by
  simp [State.freeWindow]
@[simp] theorem State.freeWindow_hist (s : State) : s.freeWindow.hist = s.hist := by
  simp [State.freeWindow]
@[simp] theorem State.freeWindow_raced (s : State) : s.freeWindow.raced = s.raced := by
  simp [State.freeWindow]
@[simp] theorem State.freeWindow_unseen (s : State) : s.freeWindow.unseen = s.unseen := by
  simp [State.freeWindow]
@[simp] theorem State.freeWindow_draws (s : State) : s.freeWindow.draws = s.draws + 16 := by
  simp [State.freeWindow]
@[simp] theorem State.freeWindow_host (s : State) : s.freeWindow.host = s.host := by
  simp [State.freeWindow]
@[simp] theorem State.freeWindow_agenda (s : State) : s.freeWindow.agenda = s.agenda := by
  simp [State.freeWindow]

/-- Updates outside the memories and the parameters leave every coefficient. -/
theorem State.coefMem_congr {s t : State} (hp : t.params = s.params) (h1 : t.smem = s.smem) (h2 : t.cmem = s.cmem) :
    t.coefMem = s.coefMem := by
  unfold State.coefMem; rw [hp, h1, h2]

theorem State.coef_eq_of_mem {s t : State} (hp : t.params = s.params) (h1 : t.smem = s.smem) (h2 : t.cmem = s.cmem)
    (a : Nat) : t.coef a = s.coef a := by
  unfold State.coef; rw [hp, State.coefMem_congr hp h1 h2]

@[simp] theorem State.commit_coefMem (s : State) :
    s.commit.coefMem = (s.writeCoefs s.operands.outBase s.committed).coefMem :=
  State.coefMem_congr (by simp) (State.commit_smem s) (State.commit_cmem s)

@[simp] theorem State.commit_coef (s : State) (a : Nat) :
    s.commit.coef a = (s.writeCoefs s.operands.outBase s.committed).coef a :=
  State.coef_eq_of_mem (by simp) (State.commit_smem s) (State.commit_cmem s) a

@[simp] theorem State.length_committed (s : State) : s.committed.length = 16 := by
  rw [State.committed, List.length_mapIdx]; rfl

/-! ### Blocks by entries and by flat index -/

theorem Blk.flat_getElem (m : Blk Int) (u v : Fin 4) (h : 4 * u.val + v.val < (Blk.flat m).length) :
    (Blk.flat m)[4 * u.val + v.val] = m.at u v := by
  revert h; fin_cases u <;> fin_cases v <;> exact fun _ => rfl

theorem State.committed_getElem (s : State) (u v : Fin 4) (h : 4 * u.val + v.val < s.committed.length) :
    s.committed[4 * u.val + v.val] = s.commitValue (4 * u.val + v.val) (s.work.o.at u v) := by
  have e : s.committed[4 * u.val + v.val] =
      s.commitValue (4 * u.val + v.val) ((Blk.flat s.work.o)[4 * u.val + v.val]'(by
        rwa [State.committed, List.length_mapIdx] at h)) := List.getElem_mapIdx
  rw [e, Blk.flat_getElem]

/-- With no race the commit writes O. -/
theorem State.commitValue_of_quiet {s : State} (h : s.raced = []) (i : Nat) (v : Int) : s.commitValue i v = v := by
  unfold State.commitValue State.coefRaced; rw [h]; simp

/-- With no race the operation reads what the space holds. -/
theorem State.window_of_quiet {s : State} (h : s.hist = []) :
    s.window = Blk.ofFn fun r c => s.sample (s.operands.sampleAddr r c).toNat := by
  unfold State.window State.blockSample; rw [h]

/-! ### FDCT's results fit L bits -/

theorem Vec4.mapO_get {α β : Type} {f : α → Option β} {v : Vec4 α} {w : Vec4 β} (h : Vec4.mapO f v = some w)
    (k : Fin 4) : f (v.get k) = some (w.get k) := by
  unfold Vec4.mapO at h
  split at h
  · rename_i h0 h1 h2 h3
    cases h
    fin_cases k
    · exact h0
    · exact h1
    · exact h2
    · exact h3
  · cases h

theorem bfly4Narrow_fits {p : Params} {a y : Vec4 Int} (h : bfly4Narrow p a = some y) (k : Fin 4) :
    fits p.nativeBits (y.get k) := by
  unfold bfly4Narrow at h
  split at h
  · exact narrow_fits (Vec4.mapO_get h k)
  · cases h

theorem two_le_nativeBits (p : Params) : 2 ≤ p.nativeBits := by
  cases hn : p.native <;> simp [Params.nativeBits, NativeWidth.bits, hn]

theorem finalNorm_at (z : Blk Int) (u v : Fin 4) : (finalNorm z).at u v = normalizeValue (z.at u v) := by
  fin_cases u <;> fin_cases v <;> rfl

theorem fdct_fits {p : Params} {x o : Blk Int} (h : fdct p x = some o) (u v : Fin 4) :
    fits p.nativeBits (o.at u v) := by
  unfold fdct at h
  obtain ⟨_, _, h⟩ := Option.bind_eq_some_iff.1 h
  obtain ⟨_, _, h⟩ := Option.bind_eq_some_iff.1 h
  obtain ⟨z, hz, h⟩ := Option.bind_eq_some_iff.1 h
  cases h
  rw [finalNorm_at]
  exact fits_normalizeValue (two_le_nativeBits p) (bfly4Narrow_fits (Vec4.mapO_get hz u) v)

end Sys2Proof.Machine
end

