-- ==== Sys2Proof/Laws/Frames.lean ====
section
/-! SUPPORT. Raising an error and the reset event: what they leave in each field and byte; reads that do not see a
change of the working storage. -/

namespace Sys2Proof.Machine

open Sys2Proof

/-! ### raiseError -/

@[simp] theorem State.raiseError_params (s : State) (e : ErrCode) : (s.raiseError e).params = s.params := by
  cases e with
  | badCmd => rfl
  | addr => rfl
  | ovf => rw [State.raiseError_ovf, State.finish_params, State.freeWindow_params]

@[simp] theorem State.raiseError_inBase (s : State) (e : ErrCode) : (s.raiseError e).inBase = s.inBase := by
  cases e with
  | badCmd => rfl
  | addr => rfl
  | ovf => rw [State.raiseError_ovf, State.finish_inBase, State.freeWindow_inBase]

@[simp] theorem State.raiseError_inStride (s : State) (e : ErrCode) : (s.raiseError e).inStride = s.inStride := by
  cases e with
  | badCmd => rfl
  | addr => rfl
  | ovf => rw [State.raiseError_ovf, State.finish_inStride, State.freeWindow_inStride]

@[simp] theorem State.raiseError_outBase (s : State) (e : ErrCode) : (s.raiseError e).outBase = s.outBase := by
  cases e with
  | badCmd => rfl
  | addr => rfl
  | ovf => rw [State.raiseError_ovf, State.finish_outBase, State.freeWindow_outBase]

@[simp] theorem State.raiseError_latInBase (s : State) (e : ErrCode) : (s.raiseError e).latInBase = s.latInBase := by
  cases e with
  | badCmd => rfl
  | addr => rfl
  | ovf => rw [State.raiseError_ovf, State.finish_latInBase, State.freeWindow_latInBase]

@[simp] theorem State.raiseError_latInStride (s : State) (e : ErrCode) : (s.raiseError e).latInStride = s.latInStride := by
  cases e with
  | badCmd => rfl
  | addr => rfl
  | ovf => rw [State.raiseError_ovf, State.finish_latInStride, State.freeWindow_latInStride]

@[simp] theorem State.raiseError_latOutBase (s : State) (e : ErrCode) : (s.raiseError e).latOutBase = s.latOutBase := by
  cases e with
  | badCmd => rfl
  | addr => rfl
  | ovf => rw [State.raiseError_ovf, State.finish_latOutBase, State.freeWindow_latOutBase]

@[simp] theorem State.raiseError_host (s : State) (e : ErrCode) : (s.raiseError e).host = s.host := by
  cases e with
  | badCmd => rfl
  | addr => rfl
  | ovf => rw [State.raiseError_ovf, State.finish_host, State.freeWindow_host]

@[simp] theorem State.raiseError_agenda (s : State) (e : ErrCode) : (s.raiseError e).agenda = s.agenda := by
  cases e with
  | badCmd => rfl
  | addr => rfl
  | ovf => rw [State.raiseError_ovf, State.finish_agenda, State.freeWindow_agenda]

theorem State.raiseError_status (s : State) (e : ErrCode) : (s.raiseError e).status = .completed e.code := by
  cases e with
  | badCmd => rfl
  | addr => rfl
  | ovf => rw [State.raiseError_ovf, State.finish_status]; rfl

/-! ### The free window -/

theorem State.read_freeWindow_outside (s : State) (x : Nat)
    (h : x < coefByteAddr s.params s.operands.outBase ∨
      coefByteAddr s.params s.operands.outBase + 16 * s.params.native.bytes ≤ x) :
    s.freeWindow.coefMem.read x = s.coefMem.read x := by
  have hm : s.freeWindow.coefMem = (s.writeCoefs s.operands.outBase
      (s.freeCoefs.take (s.params.coefWords - s.operands.outBase))).coefMem :=
    State.coefMem_congr rfl rfl rfl
  have hl : (s.freeCoefs.take (s.params.coefWords - s.operands.outBase)).length ≤ 16 := by
    simp only [List.length_take, State.length_freeCoefs]; omega
  rw [hm, State.read_writeCoefs_outside]
  have hb := Nat.mul_le_mul_right s.params.native.bytes hl
  rcases h with h | h
  · exact .inl h
  · right; rw [Nat.mul_comm s.params.native.bytes]; omega

theorem State.freeWindow_smem_separate (s : State) (hp : s.params.platform = .separate) :
    s.freeWindow.smem = s.smem := by
  show (s.writeCoefs s.operands.outBase _).smem = s.smem
  exact State.writeCoefs_smem_separate s hp _ _

theorem State.freeWindow_wf (s : State) (h1 : s.smem.wf) (h2 : s.cmem.wf) :
    s.freeWindow.smem.wf ∧ s.freeWindow.cmem.wf :=
  State.writeCoefs_wf s _ _ h1 h2

/-! ### The reset event -/

@[simp] theorem State.resetEvent_params (s : State) : s.resetEvent.params = s.params := by
  unfold State.resetEvent
  split <;> simp only [State.clearBlock_params, State.freeWindow_params]

@[simp] theorem State.resetEvent_host (s : State) : s.resetEvent.host = s.host := by
  unfold State.resetEvent
  split <;> simp only [State.clearBlock_host, State.freeWindow_host]

@[simp] theorem State.resetEvent_agenda (s : State) : s.resetEvent.agenda = s.agenda := by
  unfold State.resetEvent
  split <;> simp only [State.clearBlock_agenda, State.freeWindow_agenda]

@[simp] theorem State.resetEvent_unseen (s : State) : s.resetEvent.unseen = s.unseen := by
  unfold State.resetEvent
  split <;> simp only [State.clearBlock_unseen, State.freeWindow_unseen]

@[simp] theorem State.resetEvent_status (s : State) : s.resetEvent.status = .zero := by
  unfold State.resetEvent
  split <;> simp only [State.clearBlock_status]

@[simp] theorem State.resetEvent_seq (s : State) : s.resetEvent.seq = .idle := by
  unfold State.resetEvent
  split <;> simp only [State.clearBlock_seq]

@[simp] theorem State.resetEvent_hist (s : State) : s.resetEvent.hist = [] := by
  unfold State.resetEvent
  split <;> simp only [State.clearBlock_hist]

@[simp] theorem State.resetEvent_raced (s : State) : s.resetEvent.raced = [] := by
  unfold State.resetEvent
  split <;> simp only [State.clearBlock_raced]

theorem State.resetEvent_idle {s : State} (h : s.seq = .idle) : s.resetEvent = s.clearBlock := by
  simp only [State.resetEvent, h]

theorem State.resetEvent_busy {s : State} (h : s.seq = .busy) : s.resetEvent = s.freeWindow.clearBlock := by
  simp only [State.resetEvent, h]

/-! ### Working storage and the count of free values do not reach the spaces -/

@[simp] theorem State.drawn_operands (s : State) (n : Nat) : (s.drawn n).operands = s.operands := rfl

@[simp] theorem State.work_operands (s : State) (w : Work) : ({ s with work := w } : State).operands = s.operands := rfl

@[simp] theorem State.drawn_coefMem (s : State) (n : Nat) : (s.drawn n).coefMem = s.coefMem :=
  State.coefMem_congr rfl rfl rfl

@[simp] theorem State.work_coefMem (s : State) (w : Work) : ({ s with work := w } : State).coefMem = s.coefMem :=
  State.coefMem_congr rfl rfl rfl

@[simp] theorem State.drawn_coef (s : State) (n a : Nat) : (s.drawn n).coef a = s.coef a :=
  State.coef_eq_of_mem rfl rfl rfl a

@[simp] theorem State.work_coef (s : State) (w : Work) (a : Nat) : ({ s with work := w } : State).coef a = s.coef a :=
  State.coef_eq_of_mem rfl rfl rfl a

@[simp] theorem State.finish_coefMem (s : State) (code : BitVec 4) (vs : List Int) : (s.finish code vs).coefMem = s.coefMem :=
  State.coefMem_congr rfl rfl rfl

@[simp] theorem State.finish_coef (s : State) (code : BitVec 4) (vs : List Int) (a : Nat) :
    (s.finish code vs).coef a = s.coef a :=
  State.coef_eq_of_mem rfl rfl rfl a

theorem State.fits_writerCoef (s : State) (a : Nat) : fits s.params.nativeBits (s.writerCoef a) :=
  fits_sext s.params.nativeBits_pos _

theorem State.fits_coef (s : State) (a : Nat) : fits s.params.nativeBits (s.coef a) :=
  fits_sext s.params.nativeBits_pos _

/-- A coefficient of the window ends as the operation's value or, where an agent wrote it, as that agent's. -/
theorem State.commitValue_cases (s : State) (i : Nat) (v : Int) :
    s.commitValue i v = v ∨
      (s.coefRaced (s.operands.coefAddr i) = true ∧ s.commitValue i v = s.writerCoef (s.operands.coefAddr i)) := by
  unfold State.commitValue
  split
  · rename_i h
    exact .inr ⟨(Bool.and_eq_true_iff.1 h).1, rfl⟩
  · exact .inl rfl

/-! ### The operand registers and the working storage do not reach a coefficient write -/

theorem State.writeCoef_regs (s : State) (a : Nat) (v : Int) (x y z : Word) (w : Work) :
    ({ s with inBase := x, inStride := y, outBase := z, work := w } : State).writeCoef a v =
      { s.writeCoef a v with inBase := x, inStride := y, outBase := z, work := w } := by
  obtain ⟨p, _, _, _, _, _, _, _, _, _, _, _, _, _, _, _, _, _⟩ := s
  unfold State.writeCoef State.setCoefMem State.coefMem
  dsimp only
  cases p.platform <;> rfl

theorem State.writeCoefs_regs (s : State) (a : Nat) (vs : List Int) (x y z : Word) (w : Work) :
    ({ s with inBase := x, inStride := y, outBase := z, work := w } : State).writeCoefs a vs =
      { s.writeCoefs a vs with inBase := x, inStride := y, outBase := z, work := w } := by
  induction vs generalizing s a with
  | nil => rfl
  | cons v rest ih =>
    show State.writeCoefs (State.writeCoef _ a v) (a + 1) rest = _
    rw [State.writeCoef_regs, ih]
    rfl

theorem State.freeWindow_regs (s : State) (x y z : Word) (w : Work) :
    ({ s with inBase := x, inStride := y, outBase := z, work := w } : State).freeWindow =
      { s.freeWindow with inBase := x, inStride := y, outBase := z, work := w } := by
  unfold State.freeWindow
  rw [State.writeCoefs_regs]
  rfl

/-- E_OVF ends the operation alike whatever these held; the working storage is free values afterwards in both. -/
theorem State.raiseError_ovf_regs (s : State) (x y z : Word) (w : Work) :
    ({ s with inBase := x, inStride := y, outBase := z, work := w } : State).raiseError .ovf =
      { s.raiseError .ovf with inBase := x, inStride := y, outBase := z } :=
  congrArg (fun q : State => q.finish 3#4 s.freeCoefs) (State.freeWindow_regs s x y z w)

theorem State.commit_regs (s : State) (x y z : Word) (w : Work) (h : w.o = s.work.o) :
    ({ s with inBase := x, inStride := y, outBase := z, work := w } : State).commit =
      { s.commit with inBase := x, inStride := y, outBase := z } := by
  have hc : ({ s with inBase := x, inStride := y, outBase := z, work := w } : State).committed = s.committed := by
    unfold State.committed
    rw [h]
    rfl
  unfold State.commit
  rw [hc, State.writeCoefs_regs]
  simp only [State.finish, State.drawn, State.operands, State.writeCoefs_params, State.writeCoefs_latInBase,
    State.writeCoefs_latInStride, State.writeCoefs_latOutBase, State.writeCoefs_draws, h]

theorem maskAddr_maskAddr (p : Params) (v : Word) : maskAddr p (maskAddr p v) = maskAddr p v := by
  unfold maskAddr
  apply BitVec.eq_of_toNat_eq
  have h : v.toNat % 2 ^ p.addrBits < 2 ^ 32 := lt_of_le_of_lt (Nat.mod_le _ _) v.isLt
  rw [BitVec.toNat_ofNat, BitVec.toNat_ofNat, Nat.mod_eq_of_lt h, Nat.mod_mod, Nat.mod_eq_of_lt h]

theorem pow2_eq (n : Nat) : pow2 n = (2 : Int) ^ n := by
  unfold pow2; push_cast; rfl

end Sys2Proof.Machine
end

