-- ==== Sys2Proof/Laws/PerInstr.lean ====
section
/-! SUPPORT. Statements made for every constructor of Instr, one lemma each. -/

/-- An instruction has a command word exactly if it is a command (30_encoding.md R83, R84, R86). -/
def Sys2Proof.Laws.EncodedExactlyIfCommand.Statement (i : Sys2Proof.Instr) : Prop :=
  (Sys2Proof.encode i).isSome = i.isCommand

namespace Sys2Proof.Laws.EncodedExactlyIfCommand

open Sys2Proof

theorem fdct4x4 : Statement .fdct4x4 := rfl
theorem loadScale : Statement .loadScale := rfl
theorem dcNudge : Statement .dcNudge := rfl
theorem bfly4 (lane : Lane) : Statement (.bfly4 lane) := rfl
theorem roundShift (k : Fin 4) : Statement (.roundShift k) := rfl
theorem narrow (lane : Lane) (k : Fin 4) : Statement (.narrow lane k) := rfl
theorem transpose : Statement .transpose := rfl
theorem finalNorm : Statement .finalNorm := rfl
theorem reserved (w : Word) : Statement (.reserved w) := rfl

end Sys2Proof.Laws.EncodedExactlyIfCommand
end

