-- ==== Sys2Proof/Laws/Races.lean ====
section
/-! SUPPORT. What the record of racing writes says of a coefficient element (20_memory.md R58 item 5). -/

namespace Sys2Proof.Machine

open Sys2Proof

theorem length_byteRange (a n : Nat) : (byteRange a n).length = n := by
  simp [byteRange]

/-- In bytes listed with their addresses, and anything listed after them, each address finds its byte. -/
theorem lookup_zip_append (a : Nat) (bs : List Byte) (rest : List Host.Cell) (d : Nat → Byte) :
    (byteRange a bs.length).map (fun x => (((byteRange a bs.length).zip bs ++ rest).lookup x).getD (d x)) = bs ∧
    ∀ x ∈ byteRange a bs.length, (((byteRange a bs.length).zip bs ++ rest).lookup x).isSome = true := by
  have cons : ∀ (a : Nat) (b : Byte) (bs : List Byte),
      byteRange a (b :: bs).length = a :: byteRange (a + 1) bs.length := by
    intro a b bs
    unfold byteRange
    rw [List.length_cons, List.range_succ_eq_map, List.map_cons, List.map_map]
    congr 1
    exact List.map_congr_left fun i _ => by simp only [Function.comp_apply]; omega
  induction bs generalizing a with
  | nil => exact ⟨rfl, by simp [byteRange]⟩
  | cons b bs ih =>
    rw [cons]
    have skip : ∀ x ∈ byteRange (a + 1) bs.length,
        ((a :: byteRange (a + 1) bs.length).zip (b :: bs) ++ rest).lookup x =
          ((byteRange (a + 1) bs.length).zip bs ++ rest).lookup x := by
      intro x hx
      obtain ⟨i, _, rfl⟩ := List.mem_map.1 hx
      have hne : (a + 1 + i == a) = false := by simp; omega
      rw [List.zip_cons_cons, List.cons_append, List.lookup_cons, hne]
    have here : ((a :: byteRange (a + 1) bs.length).zip (b :: bs) ++ rest).lookup a = some b := by
      rw [List.zip_cons_cons, List.cons_append, List.lookup_cons_self]
    constructor
    · rw [List.map_cons, here, Option.getD_some]
      congr 1
      rw [List.map_congr_left fun x hx => by rw [skip x hx]]
      exact (ih (a + 1)).1
    · intro x hx
      rcases List.mem_cons.1 hx with rfl | hx
      · rw [here]; rfl
      · rw [skip x hx]
        exact (ih (a + 1)).2 x hx

/-- With an element's bytes latest in the record, the element is raced and its writer's value is those bytes' value. -/
theorem State.writerCoef_of_raced {s : State} (a : Nat) (v : Int) (rest : List Host.Cell)
    (h : s.raced = (byteRange (coefByteAddr s.params a) s.params.native.bytes).zip (coefBytes s.params v) ++ rest) :
    s.coefRaced a = true ∧ s.writerCoef a = wrap s.params.nativeBits v := by
  have hz := lookup_zip_append (coefByteAddr s.params a) (coefBytes s.params v) rest fun x => s.coefMem.read x
  rw [length_coefBytes, ← h] at hz
  constructor
  · unfold State.coefRaced
    have hp := NativeWidth.bytes_pos s.params.native
    refine List.any_eq_true.2 ⟨coefByteAddr s.params a, ?_, ?_⟩
    · exact List.mem_map.2 ⟨0, List.mem_range.2 hp, rfl⟩
    · exact hz.2 _ (List.mem_map.2 ⟨0, List.mem_range.2 hp, rfl⟩)
  · unfold State.writerCoef
    rw [hz.1, bytesElement_coefBytes]

/-- While idle an agent's write only changes memory. -/
theorem State.land_idle {s : State} (h : s.seq = .idle) (coef : Bool) (a : Nat) (bs : List Byte) :
    s.land coef a bs = s.putBytes coef a bs := by
  simp only [State.land, State.noteRaced, State.noteSamples, h]

/-- While an operation runs it is recorded as well, for the samples and for the coefficients it reaches. -/
theorem State.land_busy {s : State} (h : s.seq = .busy) (coef : Bool) (a : Nat) (bs : List Byte) :
    s.land coef a bs =
      State.putBytes
        { s with
          hist := if reachesSamples s.params coef then s.smem :: s.hist else s.hist
          raced := if reachesCoefs s.params coef then (byteRange a bs.length).zip bs ++ s.raced else s.raced }
        coef a bs := by
  simp only [State.land, State.noteRaced, State.noteSamples, h]

/-- While an operation runs, a landed coefficient write is the element's latest racing one. -/
theorem State.raced_land {s : State} (hb : s.seq = .busy) (a : Nat) (bs : List Byte) :
    (s.land true a bs).raced = (byteRange a bs.length).zip bs ++ s.raced := by
  simp [State.land_busy hb, reachesCoefs]

end Sys2Proof.Machine
end

