-- ==== Sys2Proof/Laws/Step.lean ====
section
/-! SUPPORT. What a step, a host action and a command can do, said once. -/

namespace Sys2Proof.Machine

open Sys2Proof

/-- A step is the turn the agenda names, on the state with that turn used up. -/
theorem step_eq (s : State) : step s = takeTurn s.turn.1 { s with agenda := s.turn.2 } := by
  obtain ⟨_, _, _, _, _, _, _, _, _, _, _, _, _, _, _, _, _, agenda⟩ := s
  cases agenda <;> rfl

/-- A command either leaves the state, is accepted, or is rejected (10_state.md R25). -/
theorem exec_decode_cases {s t : State} {w : Word} (h : exec (decode w) s = .next t) :
    (s.seq = .busy ∧ t = s) ∨
    (s.seq = .idle ∧ w = 0x00000001#32 ∧ t = s.accept ∧
      ¬ (s.nextOperands.addressOk s.params = true ∧ s.nextOperands.windowsOverlap s.params = true)) ∨
    (s.seq = .idle ∧ w ≠ 0x00000001#32 ∧ t = s.raiseError .badCmd) := by
  unfold decode at h
  split at h
  · rename_i hw
    change execFdct4x4 s = .next t at h
    unfold execFdct4x4 at h
    cases hs : s.seq with
    | busy => rw [hs] at h; cases h; exact .inl ⟨rfl, rfl⟩
    | idle =>
      rw [hs] at h
      dsimp only at h
      split at h
      · cases h
      · rename_i hn
        cases h
        exact .inr (.inl ⟨rfl, hw, rfl, by simpa using hn⟩)
  · rename_i hw
    change execReserved w s = .next t at h
    unfold execReserved at h
    cases hs : s.seq with
    | busy => rw [hs] at h; cases h; exact .inl ⟨rfl, rfl⟩
    | idle => rw [hs] at h; cases h; exact .inr (.inr ⟨rfl, hw, rfl⟩)

/-- What a host action that goes on can do (30_encoding.md R87). -/
theorem hostAction_cases {st : HostStmt} {s t : State} (h : hostAction st s = .next t) :
    (∃ w, st = .writeReg .cmd w ∧ exec (decode w) s = .next t) ∨
    (∃ offset v, st = .wr offset 4 v ∧ offset ≠ 0 ∧ t = s.writeReg offset v) ∨
    (∃ dst offset, st = .rd dst offset 4 ∧ t = (s.observe offset).setHostVar dst (s.readReg offset)) ∨
    (∃ coef a bs, t = s.hostStore coef a bs) ∨
    (∃ dst v, t = s.hostTake dst v) ∨
    (∃ n, t = { s with host := { s.host with pc := n } }) := by
  have branch : ∀ b l, hostBranch s b l = .next t → ∃ n, t = { s with host := { s.host with pc := n } } := by
    intro b l hb
    unfold hostBranch at hb
    split at hb
    · split at hb
      · cases hb; exact ⟨_, rfl⟩
      · cases hb
    · cases hb; exact ⟨s.host.pc, rfl⟩
  cases st with
  | wr offset size v =>
    simp only [hostAction] at h
    split at h
    · rename_i hd
      have h4 : size = 4 := by
        simp only [regAccessDefined, Bool.and_eq_true, beq_iff_eq] at hd; exact hd.1.1
      subst h4
      split at h
      · rename_i h0; subst h0; exact .inl ⟨v, rfl, h⟩
      · rename_i h0; cases h; exact .inr (.inl ⟨offset, v, rfl, h0, rfl⟩)
    · cases h
  | rd dst offset size =>
    simp only [hostAction] at h
    split at h
    · rename_i hd
      have h4 : size = 4 := by
        simp only [regAccessDefined, Bool.and_eq_true, beq_iff_eq] at hd; exact hd.1.1
      subst h4
      cases h
      exact .inr (.inr (.inl ⟨dst, offset, rfl, rfl⟩))
    · cases h
  | mwS a v =>
    simp only [hostAction] at h
    split at h
    · cases h; exact .inr (.inr (.inr (.inl ⟨_, _, _, rfl⟩)))
    · cases h
  | mrC dst a =>
    simp only [hostAction] at h
    split at h
    · cases h; exact .inr (.inr (.inr (.inr (.inl ⟨_, _, rfl⟩))))
    · cases h
  | mwC a v =>
    simp only [hostAction] at h
    split at h
    · cases h; exact .inr (.inr (.inr (.inl ⟨_, _, _, rfl⟩)))
    · cases h
  | mrS dst a =>
    simp only [hostAction] at h
    split at h
    · cases h; exact .inr (.inr (.inr (.inr (.inl ⟨_, _, rfl⟩))))
    · cases h
  | label l => cases h; exact .inr (.inr (.inr (.inr (.inr ⟨s.host.pc, rfl⟩))))
  | bnz x m l => exact .inr (.inr (.inr (.inr (.inr (branch _ _ h)))))
  | bz x m l => exact .inr (.inr (.inr (.inr (.inr (branch _ _ h)))))

/-- A write of a register other than CMD changes one operand register at most. -/
theorem writeReg_cases (s : State) (offset : Nat) (v : Word) :
    s.writeReg offset v = { s with inBase := maskAddr s.params v } ∨ s.writeReg offset v = { s with inStride := v } ∨
    s.writeReg offset v = { s with outBase := maskAddr s.params v } ∨ s.writeReg offset v = s := by
  unfold State.writeReg
  split
  · exact .inl rfl
  · exact .inr (.inl rfl)
  · exact .inr (.inr (.inl rfl))
  · exact .inr (.inr (.inr rfl))

/-- An agent's write lands; in a window not yet seen DONE the operations' values may come back over it. -/
theorem hostStore_cases (s : State) (coef : Bool) (a : Nat) (bs : List Byte) :
    (s.meetsUnseen coef a bs.length = false ∧ s.hostStore coef a bs = s.land coef a bs) ∨
    (s.meetsUnseen coef a bs.length = true ∧
      (s.hostStore coef a bs = (s.land coef a bs).drawn 1 ∨
        s.hostStore coef a bs =
          (((s.land coef a bs).noteSamples coef).restore (s.unseenElements a bs.length)).drawn 1)) := by
  unfold State.hostStore
  dsimp only
  split
  · rename_i hm
    refine .inr ⟨hm, ?_⟩
    split
    · exact .inl rfl
    · exact .inr rfl
  · rename_i hm
    exact .inl ⟨by simpa using hm, rfl⟩

end Sys2Proof.Machine
end

