-- ==== Sys2Proof/Laws/Widths.lean ====
section
/-! SUPPORT. The working storage keeps its widths (10_state.md R35) through the micro-operations and the completion
step. -/

namespace Sys2Proof.Machine

open Sys2Proof

/-- A step after which the working storage still has its widths. -/
abbrev KeepsWidths (f : State → Host.Outcome State Fault Refusal) : Prop :=
  ∀ s t : State, f s = .next t → s.work.Fits s.params → t.work.Fits t.params

theorem vecFits_set {n : Nat} {v : Vec4 Int} (h : vecFits n v) (k : Fin 4) {x : Int} (hx : fits n x) :
    vecFits n (v.set k x) := by
  intro j
  have hj := h j
  fin_cases k <;> fin_cases j <;> first | exact hx | exact hj

theorem blkFits_put {n : Nat} {m : Blk Int} (h : blkFits n m) (r c : Fin 4) {x : Int} (hx : fits n x) :
    blkFits n (Blk.put m r c x) := by
  intro i j
  by_cases hi : i = r
  · subst hi
    have e : (Blk.put m i c x).get i = (m.get i).set c x := by
      unfold Blk.put; generalize (m.get i).set c x = w; fin_cases i <;> rfl
    show fits n (((Blk.put m i c x).get i).get j)
    rw [e]
    exact vecFits_set (fun k => h i k) c hx j
  · have e : (Blk.put m r c x).get i = m.get i := by
      unfold Blk.put; generalize (m.get r).set c x = w
      fin_cases i <;> fin_cases r <;> first | rfl | exact absurd rfl hi
    show fits n (((Blk.put m r c x).get i).get j)
    rw [e]
    exact h i j

theorem blkFits_transposed {n : Nat} {m : Blk Int} (h : blkFits n m) : blkFits n (Blk.transposed m) := by
  intro r c
  have := h c r
  fin_cases r <;> fin_cases c <;> exact this

theorem fits_asr {n k : Nat} {u : Int} (h : fits n u) : fits n (asr u k) := by
  have hp := pow2_pos k
  have hn := pow2_pos (n - 1)
  unfold asr
  constructor
  · rw [Int.le_ediv_iff_mul_le hp]; nlinarith [h.1]
  · have := Int.ediv_lt_of_lt_mul hp (show u < pow2 (n - 1) * pow2 k by nlinarith [h.2])
    omega

theorem roundShift_fits {p : Params} {v y : Int} (h : roundShift p v = some y) : fits p.workingBits y := by
  obtain ⟨hf, rfl⟩ := roundShift_eq_some.1 h
  exact fits_asr hf

theorem butterfly_fits {p : Params} {a : Vec4 Int} {b : Butterfly} (h : butterfly p a = some b) : b.Fits p := by
  rw [butterfly_eq] at h
  split at h
  · rename_i hc
    cases h
    simp only [butterflyChecked, List.mem_cons, List.not_mem_nil, or_false, forall_eq_or_imp, forall_eq] at hc
    obtain ⟨a0, a1, a2, a3, s0, s1, s2, s3, e0, e1, t0, t1, p1, p2, t2, p3, p4, p5, t3, r0, r2, r1, r3⟩ := hc
    refine ⟨?_, ?_, e0, e1, p1, p2, p3, p4, p5, ?_, ?_⟩
    · intro k; fin_cases k <;> assumption
    · intro k; fin_cases k <;> assumption
    · intro k; fin_cases k <;> assumption
    · intro k; fin_cases k
      · exact fits_asr r0
      · exact fits_asr r2
      · exact fits_asr r1
      · exact fits_asr r3
  · cases h

theorem Work.Fits.storeLane {q : Params} {w : Work} (h : w.Fits q) (lane : Lane) (k : Fin 4) {v : Int}
    (hv : fits q.nativeBits v) : (w.storeLane lane k v).Fits q := by
  cases lane with
  | column c => exact ⟨h.p, blkFits_put h.i c k hv, h.t, h.z, h.o, h.bf⟩
  | row r => exact ⟨h.p, h.i, h.t, blkFits_put h.z r k hv, h.o, h.bf⟩

/-- Free working storage has its widths (10_state.md R40). -/
theorem freeWork_fits (p : Params) (n : Nat) : (freeWork p n).Fits p := by
  have hw : ∀ k, fits p.workingBits (freeSigned p.workingBits k) := fun k => fits_wrap p.workingBits_pos _
  have hl : ∀ k, fits p.nativeBits (freeSigned p.nativeBits k) := fun k => fits_wrap p.nativeBits_pos _
  have blkW : ∀ k, blkFits p.workingBits (freeBlk p.workingBits k) := by
    intro k r c; fin_cases r <;> fin_cases c <;> exact hw _
  have blkL : ∀ k, blkFits p.nativeBits (freeBlk p.nativeBits k) := by
    intro k r c; fin_cases r <;> fin_cases c <;> exact hl _
  have vecW : ∀ k, vecFits p.workingBits (freeVec p.workingBits k) := by
    intro k j; fin_cases j <;> exact hw _
  exact ⟨blkW _, blkL _, blkL _, blkL _, blkL _,
    ⟨vecW _, vecW _, hw _, hw _, hw _, hw _, hw _, hw _, hw _, vecW _, vecW _⟩⟩

theorem State.raiseError_workFits {s : State} (h : s.work.Fits s.params) (e : ErrCode) :
    (s.raiseError e).work.Fits (s.raiseError e).params := by
  cases e with
  | badCmd => exact h
  | addr => exact freeWork_fits _ _
  | ovf =>
    rw [State.raiseError_ovf, State.finish_work, State.finish_params]
    exact freeWork_fits _ _

/-- A micro-operation that answers ran inside an operation. -/
theorem inOperation_next {s t : State} {k : Host.Outcome State Fault Refusal} (h : inOperation s k = .next t) :
    k = .next t := by
  unfold inOperation at h
  split at h
  · exact h
  · cases h

/-- What comes of a sequence that goes on: the first state, and the second step of it or nothing more. -/
theorem andThen_next {t : State} {o : Host.Outcome State Fault Refusal} {f : State → Host.Outcome State Fault Refusal}
    (h : andThen o f = .next t) : ∃ u, o = .next u ∧ (f u = .next t ∨ t = u) := by
  cases o with
  | next u =>
    refine ⟨u, rfl, ?_⟩
    unfold andThen at h
    dsimp only at h
    split at h
    · exact .inl h
    · exact .inr (Host.Outcome.next.inj h).symm
  | fault r => cases h
  | refused r => cases h

theorem execBfly4_widths (lane : Lane) : KeepsWidths (execBfly4 lane) := by
  intro s t h hs
  have h := inOperation_next h
  split at h <;> cases h
  · rename_i b hb
    exact ⟨hs.p, hs.i, hs.t, hs.z, hs.o, butterfly_fits hb⟩
  · exact State.raiseError_workFits hs _

theorem execRoundShift_widths (k : Fin 4) : KeepsWidths (execRoundShift k) := by
  intro s t h hs
  have h := inOperation_next h
  split at h <;> cases h
  · rename_i y hy
    exact ⟨hs.p, hs.i, hs.t, hs.z, hs.o, { hs.bf with y := vecFits_set hs.bf.y _ (roundShift_fits hy) }⟩
  · exact State.raiseError_workFits hs _

theorem execNarrow_widths (lane : Lane) (k : Fin 4) : KeepsWidths (execNarrow lane k) := by
  intro s t h hs
  have h := inOperation_next h
  split at h <;> cases h
  · rename_i v hv
    exact hs.storeLane lane k (narrow_fits hv)
  · exact State.raiseError_workFits hs _

theorem execTranspose_widths : KeepsWidths execTranspose := by
  intro s t h hs
  cases inOperation_next h
  exact ⟨hs.p, hs.i, blkFits_transposed hs.i, hs.z, hs.o, hs.bf⟩

theorem execFinalNorm_widths : KeepsWidths execFinalNorm := by
  intro s t h hs
  cases inOperation_next h
  refine ⟨hs.p, hs.i, hs.t, hs.z, fun r c => ?_, hs.bf⟩
  show fits s.params.nativeBits ((Sys2Proof.finalNorm s.work.z).at r c)
  rw [finalNorm_at]
  exact fits_normalizeValue (two_le_nativeBits _) (hs.z r c)

theorem runSteps_widths (steps : List (State → Host.Outcome State Fault Refusal))
    (h : ∀ f ∈ steps, KeepsWidths f) : KeepsWidths (runSteps steps) := by
  induction steps with
  | nil => intro s t hr hs; cases hr; exact hs
  | cons f rest ih =>
    intro s t hr hs
    obtain ⟨u, hu, hc⟩ := andThen_next (o := f s) (f := runSteps rest) hr
    have hw := h f (by simp) s u hu hs
    rcases hc with hc | rfl
    · exact ih (fun g hg => h g (by simp [hg])) u t hc hw
    · exact hw

theorem laneSteps_widths (lane : Lane) : ∀ f ∈ laneSteps lane, KeepsWidths f := by
  intro f hf
  simp only [laneSteps, List.mem_cons, List.not_mem_nil, or_false] at hf
  rcases hf with rfl | rfl | rfl | rfl | rfl
  · exact execBfly4_widths lane
  all_goals exact execNarrow_widths lane _

/-- The nudged block of 16 samples fits W bits (41_load_scale.md R121). -/
theorem nudge_window_fits (s : State) : blkFits s.params.workingBits (nudge (Blk.map (16 * ·) s.window)) := by
  have h32 : 32 ≤ s.params.workingBits := by cases h : s.params.working <;> simp [Params.workingBits, WorkingWidth.bits, h]
  have small : ∀ v : Int, -524288 ≤ v → v ≤ 524273 → fits s.params.workingBits v := by
    intro v h1 h2
    apply fits_mono h32
    have : pow2 (32 - 1) = 2147483648 := by decide
    simp only [fits, this]; omega
  have hx : ∀ k a, -32768 ≤ s.blockSample k a ∧ s.blockSample k a ≤ 32767 := by
    intro k a
    have := s.fits_blockSample k a
    have h15 : pow2 (16 - 1) = 32768 := by decide
    simp only [fits, h15] at this
    omega
  have hb : blkFits s.params.workingBits (Blk.map (16 * ·) s.window) := by
    intro r c
    have := hx (4 * r.val + c.val) (s.operands.sampleAddr r c).toNat
    have e : (Blk.map (16 * ·) s.window).at r c = 16 * s.blockSample (4 * r.val + c.val) (s.operands.sampleAddr r c).toNat := by
      fin_cases r <;> fin_cases c <;> rfl
    rw [e]
    exact small _ (by omega) (by omega)
  unfold nudge
  split
  · apply blkFits_put hb
    have := hx 0 (s.operands.sampleAddr 0 0).toNat
    show fits _ (16 * s.blockSample 0 (s.operands.sampleAddr 0 0).toNat + 1)
    exact small _ (by omega) (by omega)
  · exact hb

/-- The completion step keeps the widths of the working storage (10_state.md R35). -/
theorem completeOp_widths : KeepsWidths completeOp := by
  intro s t h hs
  unfold completeOp at h
  cases hb : s.seq with
  | idle => rw [hb] at h; cases h; exact hs
  | busy =>
    rw [hb] at h
    dsimp only at h
    split at h
    · rename_i hok
      have keeps : ∀ u, runSteps transformSteps s = .next u → u.work.Fits u.params := by
        intro u hu
        have e : transformSteps = execLoadScale :: execDcNudge ::
            (laneSteps (.column 0) ++ laneSteps (.column 1) ++ laneSteps (.column 2) ++ laneSteps (.column 3) ++
              [execTranspose] ++ laneSteps (.row 0) ++ laneSteps (.row 1) ++ laneSteps (.row 2) ++ laneSteps (.row 3) ++
              [execFinalNorm]) := rfl
        rw [e, runSteps_loadScale hb hok, runSteps_dcNudge (by exact hb)] at hu
        refine runSteps_widths _ ?_ _ _ hu ?_
        · intro f hf
          simp only [List.mem_append, List.mem_singleton] at hf
          rcases hf with ((((((((hf | hf) | hf) | hf) | rfl) | hf) | hf) | hf) | hf) | rfl
          any_goals exact laneSteps_widths _ f hf
          · exact execTranspose_widths
          · exact execFinalNorm_widths
        · exact ⟨nudge_window_fits s, hs.i, hs.t, hs.z, hs.o, hs.bf⟩
      obtain ⟨u, hu, hc⟩ := andThen_next h
      have hw := keeps u hu
      rcases hc with hc | rfl
      · obtain rfl := Host.Outcome.next.inj hc
        rw [State.commit_work, State.commit_params]; exact freeWork_fits _ _
      · exact hw
    · cases h
      exact State.raiseError_workFits hs _

/-! ### The values an ended operation leaves on record -/

theorem State.freeCoefs_record (s : State) :
    s.freeCoefs.length = 16 ∧ ∀ v ∈ s.freeCoefs, fits s.params.nativeBits v := by
  refine ⟨s.length_freeCoefs, fun v hv => ?_⟩
  obtain ⟨i, _, rfl⟩ := List.mem_map.1 hv
  exact fits_wrap s.params.nativeBits_pos _

theorem fdct_record {p : Params} {x o : Blk Int} (h : fdct p x = some o) :
    (Blk.flat o).length = 16 ∧ ∀ v ∈ Blk.flat o, fits p.nativeBits v := by
  refine ⟨rfl, fun v hv => ?_⟩
  obtain ⟨i, hi, rfl⟩ := List.mem_iff_getElem.1 hv
  have h16 : i < 16 := hi
  have e : 4 * (i / 4) + i % 4 = i := Nat.div_add_mod i 4
  have hg := Blk.flat_getElem o ⟨i / 4, by omega⟩ ⟨i % 4, by omega⟩ (by simpa only [e] using hi)
  simp only [e] at hg
  rw [hg]
  exact fdct_fits h _ _

end Sys2Proof.Machine
end

