-- ==== Sys2Proof/Tests/Slice0.lean ====
section
/-! SUPPORT. Tests: ill-formed terms refused, words from the encoding tables decoded, one-step tests with the values of
95_test_vectors.md, and a witness for every statement that has hypotheses. -/

namespace Sys2Proof.Tests

open Sys2Proof Sys2Proof.Machine

-- One thread at a time: each thread of a parallel check would hold a stack of its own.
set_option Elab.async false

/-! ### Small states -/

/-- What a test reads of a next state. -/
def after {α : Type} (o : Host.Outcome State Fault Refusal) (f : State → α) : Option α :=
  match o with
  | .next t => some (f t)
  | .fault _ => none
  | .refused _ => none

/-- Sixteen-bit samples placed from element `a` up. -/
def State.withSamples (s : State) (a : Nat) (vs : List Int) : State :=
  { s with
    smem := s.smem.store (sampleByteAddr s.params a)
      (vs.flatMap fun v => elementBytes s.params.byteOrder 2 (pattern 16 v)) }

/-- An operation accepted with these operands. -/
def State.running (s : State) (inBase stride outBase : Word) : State :=
  { s with latInBase := inBase, latInStride := stride, latOutBase := outBase, status := .accepted, seq := .busy }

/-- The idle machine with these parameters. -/
def machine (p : Params) : State := { State.reset with params := p }

/-- The golden block's operation (95_test_vectors.md 3.1). -/
def golden : State :=
  State.running (State.withSamples State.reset 0 [1, 2, 3, 4, 5, 6, 7, 8, 9, 10, 11, 12, 13, 14, 15, 16]) 0 4 0

/-- Sixteen samples of 257, an overflow in L = 16 (95_test_vectors.md program 4). -/
def loud : State := State.running (State.withSamples State.reset 0 (List.replicate 16 257)) 0 4 0

/-- Both spaces on one memory, big-endian, samples at bytes 0 up, coefficients at bytes 64 up. -/
def sharedParams : Params := { cfgLbd with byteOrder := .big, platform := .shared 0 64 }

/-- The coefficients in elements `a` to `a + n - 1`. -/
def coefs (a n : Nat) (s : State) : List Int := (List.range n).map fun i => s.coef (a + i)

/-- An operation running, with this working storage. -/
def working (w : Work) : State := { golden with work := w }

/-- A block from its 16 values in row-major order. -/
def blk (l : List Int) : Blk Int := Blk.ofFn fun r c => l.getD (4 * r.val + c.val) 0

theorem next_of_after {o : Host.Outcome State Fault Refusal} (h : (after o fun _ => ()).isSome = true) :
    ∃ t, o = .next t := by
  cases o with
  | next t => exact ⟨t, rfl⟩
  | fault r => cases h
  | refused r => cases h

/-! ### Ill-formed terms are refused -/

theorem test_reserved_one_is_ill_formed : Instr.wellFormed (.reserved 0x00000001#32) = false := by decide
theorem test_narrow_access_is_ill_formed : HostStmt.wellFormed [] (.wr 0x04 2 0#32) = false := by decide
theorem test_wide_access_is_ill_formed : HostStmt.wellFormed [] (.rd 0 0x10 8) = false := by decide
theorem test_misaligned_access_is_ill_formed : HostStmt.wellFormed [] (.wr 0x06 4 0#32) = false := by decide
theorem test_access_past_the_block_is_ill_formed : HostStmt.wellFormed [] (.rd 0 0x20 4) = false := by decide
theorem test_branch_without_label_is_ill_formed : HostStmt.wellFormed [] (.bnz 0 1#32 7) = false := by decide
theorem test_bz_without_label_is_ill_formed : HostStmt.wellFormed [.label 6] (.bz 0 1#32 7) = false := by decide
theorem test_label_twice_is_ill_formed : programWellFormed [.label 1, .label 1] = false := by decide
theorem test_wait_is_well_formed : programWellFormed (pseudoWait 0 1) = true := by decide

/-! ### Words from the encoding tables (30_encoding.md R80, R83, R84, R86, 60_exceptions.md R301) -/

theorem test_decode_fdct4x4 : decode 0b00000000000000000000000000000001#32 = .fdct4x4 := by decide
theorem test_decode_zero : decode 0b00000000000000000000000000000000#32 = .reserved 0x00000000#32 := by decide
theorem test_decode_opc_two : decode 0b00000000000000000000000000000010#32 = .reserved 0x00000002#32 := by decide
theorem test_decode_rsv : decode 0b00000000000000000000000100000001#32 = .reserved 0x00000101#32 := by decide
theorem test_decode_top_bit : decode 0b10000000000000000000000000000001#32 = .reserved 0x80000001#32 := by decide
theorem test_command_word_fields : commandWord 0x000001#24 0x01#8 = 0x00000101#32 := by decide
theorem test_table_word : decodeTableWord 32 1 = some .fdct4x4 := by decide
theorem test_table_word_too_wide : decodeTableWord 64 0x100000001 = none := by decide
theorem test_micro_operations_have_no_word :
    [Instr.loadScale, .dcNudge, .bfly4 (.column 0), .roundShift 1, .narrow (.row 2) 3, .transpose, .finalNorm].map encode =
      List.replicate 7 none := by decide
theorem test_pseudo_fdct4x4 : pseudoFdct4x4 16 36 16 =
    [.wr 0x04 4 36#32, .wr 0x08 4 16#32, .wr 0x0C 4 16#32, .wr 0x00 4 1#32] := by decide
theorem test_pseudo_check : pseudoCheck 2 = [.rd 2 0x10 4] := by decide

/-! ### Commands -/

/-- 95_test_vectors.md program 1: the CMD write. -/
theorem test_fdct4x4_accepted : after (exec .fdct4x4 State.reset) (fun t => (t.status.word, t.seq)) =
    some (0x00000001#32, .busy) := by decide
/-- 95_test_vectors.md program 3: a reserved word while idle. -/
theorem test_reserved_while_idle : after (exec (.reserved 0x101#32) State.reset) (fun t => (t.status.word, t.seq)) =
    some (0x00000016#32, .idle) := by decide
/-- 60_exceptions.md R308. -/
theorem test_reserved_while_busy : after (exec (.reserved 0#32) golden) (fun t => (t.status.word, t.seq)) =
    some (0x00000001#32, .busy) := by decide
/-- The step runs the placed command. -/
theorem test_step_runs_placed_word : after (step (State.reset.withFetchWord 32 1)) (fun t => (t.status.word, t.host.pc)) =
    some (0x00000001#32, 1) := by decide

/-! ### Registers -/

/-- 10_state.md R30, 95_test_vectors.md program 1. -/
theorem test_config_lbd : (machine cfgLbd).readReg 0x14 = 0x072080E0#32 := by decide
theorem test_config_hbd : (machine cfgHbd).readReg 0x14 = 0x0720C0E3#32 := by decide
/-- 10_state.md R26: with ADDR_BITS = 8 the upper bits read 0. -/
theorem test_reserved_address_bits : after (hostAction (.wr 0x04 4 0xFFFFFFFF#32) (machine { cfgLbd with addrBits := 8 }))
    (fun t => t.readReg 0x04) = some 0x000000FF#32 := by decide
/-- 30_encoding.md R81, R82, 95_test_vectors.md 2.3: a negative stride. -/
theorem test_negative_stride : (assemble cfgLbd 36#32 0xFFFFFFF0#32 0#32).sampleAddr 2 3 = 7 := by decide
theorem test_positive_stride : (assemble cfgLbd 36#32 16#32 0#32).sampleAddr 2 3 = 71 := by decide

/-! ### Micro-operations -/

/-- 95_test_vectors.md 4.1: x00 = -32768, and no nudge away from the corner. -/
theorem test_load_scale : after (exec .loadScale (State.withSamples golden 11 [7])) (fun t => (t.work.p.at 2 3, t.work.p.at 0 0)) =
    some (112, 16) := by decide
theorem test_load_scale_lowest : after (exec .loadScale (State.withSamples golden 0 [-32768])) (fun t => t.work.p.at 0 0) =
    some (-524288) := by decide
/-- 95_test_vectors.md 4.1. -/
theorem test_dc_nudge_up : after (exec .dcNudge (working { zeroWork with p := blk [-16, 16] })) (fun t => (t.work.p.at 0 0, t.work.p.at 0 1)) =
    some (-15, 16) := by decide
theorem test_dc_nudge_zero : after (exec .dcNudge (working { zeroWork with p := blk [0, 16] })) (fun t => (t.work.p.at 0 0, t.work.p.at 0 1)) =
    some (0, 16) := by decide
/-- 95_test_vectors.md 4.3: golden column 0, and its accumulators (3.2). -/
theorem test_bfly4_golden : after (exec (.bfly4 (.column 0)) (working { zeroWork with p := blk [17, 32, 48, 64, 80, 96, 112, 128, 144, 160, 176, 192, 208, 224, 240, 256] }))
    (fun t => (t.work.bf.t, t.work.bf.y)) = some (⟨5201665, 11585, -3292447, -228802⟩, ⟨317, -201, 1, -14⟩) := by decide
/-- 95_test_vectors.md 4.3: a row of T whose rounding sum exceeds 32 bits. -/
theorem test_bfly4_overflow : after (exec (.bfly4 (.row 1)) (working { zeroWork with t := blk [0, 0, 0, 0, 46342, 46342, 46342, 46341] }))
    (fun t => (t.status.word, t.seq)) = some (0x00000036#32, .idle) := by decide +kernel
/-- 95_test_vectors.md 4.2: ties, for both signs, and the place of t1. -/
theorem test_round_shift_tie : after (exec (.roundShift 1) (working { zeroWork with bf := { zeroWork.bf with t := ⟨0, 24576, 0, 0⟩ } }))
    (fun t => t.work.bf.y) = some ⟨0, 0, 2, 0⟩ := by decide
theorem test_round_shift_negative_tie : after (exec (.roundShift 3) (working { zeroWork with bf := { zeroWork.bf with t := ⟨0, 0, 0, -24576⟩ } }))
    (fun t => t.work.bf.y) = some ⟨0, 0, 0, -1⟩ := by decide
/-- 95_test_vectors.md 4.6: 46295 under WRAP is -19241, under FAULT an overflow. -/
theorem test_narrow_wraps : after (exec (.narrow (.column 2) 1) { working { zeroWork with bf := { zeroWork.bf with y := ⟨0, 46295, 0, 0⟩ } } with
      params := { cfgLbd with narrowMode := .wrap } }) (fun t => (t.work.i.at 2 1, t.status.word)) = some (-19241, 0x00000001#32) := by decide
theorem test_narrow_faults : after (exec (.narrow (.row 0) 1) (working { zeroWork with bf := { zeroWork.bf with y := ⟨0, 46295, 0, 0⟩ } }))
    (fun t => t.status.word) = some 0x00000036#32 := by decide +kernel
/-- 95_test_vectors.md 4.4. -/
theorem test_transpose : after (exec .transpose (working { zeroWork with i := blk [0, 1, 2, 3, 4, 5, 6, 7, 8, 9, 10, 11, 12, 13, 14, 15] })) (fun t => Blk.flat t.work.t) =
    some [0, 4, 8, 12, 1, 5, 9, 13, 2, 6, 10, 14, 3, 7, 11, 15] := by decide
/-- 95_test_vectors.md 4.5. -/
theorem test_final_norm : after (exec .finalNorm (working { zeroWork with z := blk [-8, -7, -6, -5, -4, -1, 0, 1, 2, 3, 6, 7, 1088, 32767, -32768, -571] })) (fun t => Blk.flat t.work.o) =
    some [-2, -2, -2, -1, -1, 0, 0, 0, 0, 1, 1, 2, 272, 8192, -8192, -143] := by decide
theorem test_micro_operation_while_idle : exec .transpose State.reset = .refused .noOperation := rfl

/-! ### The whole operation -/

/-- 95_test_vectors.md 3.2 and program 1. -/
theorem test_golden_block : after (completeOp golden) (fun t => (t.status.word, coefs 0 17 t)) =
    some (0x00000002#32, [272, -36, 0, -3, -143, 0, 0, 0, 0, 0, 0, 0, -10, 0, 0, 0, 0]) := by decide +kernel
/-- The same on one big-endian memory, where byte 64 is the top byte of coefficient 0. -/
theorem test_golden_block_shared : after (completeOp { golden with
      params := sharedParams
      smem := (State.withSamples (machine sharedParams) 0 [1, 2, 3, 4, 5, 6, 7, 8, 9, 10, 11, 12, 13, 14, 15, 16]).smem })
    (fun t => (t.status.word, coefs 0 5 t, t.smem.read 64, t.smem.read 65, t.smem.read 1)) =
    some (0x00000002#32, [272, -36, 0, -3, -143], 1#8, 16#8, 1#8) := by decide +kernel
/-- 95_test_vectors.md 4.7: which pass comes first shows at flat index 9. -/
theorem test_columns_first : (fdct cfgLbd (blk [-145, 241, -39, 116, -241, 15, -142, 136, -31, 225, -2, 28, -136, -79, -137, 91])).map Blk.flat =
    some [-200, -1633, -528, -2887, 645, -293, -782, -893, -152, -185, 288, 64, 1651, 1267, -1083, -123] := by decide
/-- 95_test_vectors.md program 4. -/
theorem test_overflow : after (completeOp loud) (fun t => (t.status.word, t.seq)) = some (0x00000036#32, .idle) := by decide +kernel
/-- 95_test_vectors.md program 3: 49 + 15 = 64 is outside. -/
theorem test_address_error_top : after (completeOp { golden with latOutBase := 49#32 }) (fun t => t.status.word) = some 0x00000026#32 := by decide
/-- 20_memory.md R64: sixteen samples at bytes 0 to 31, coefficients from byte 30 up. -/
theorem test_overlap_refused : exec .fdct4x4 { machine { cfgLbd with platform := .shared 0 0 } with inStride := 4#32, outBase := 15#32 } =
    .refused .windowsOverlap := rfl
/-- The canonical form drops a zero byte. -/
theorem test_memory_canonical : (Memory.write (Memory.store [] 4 [1#8, 2#8]) 4 0#8) = [(5, 2#8)] := by decide

/-! ### Witnesses: for each statement with hypotheses, a state and operands that meet them, clause by clause -/

theorem witness_OtherCommandWordsAreReserved :
    ¬ (0x000001#24 = 0#24 ∧ 0x01#8 = 0x01#8) ∧ ¬ (0#24 = 0#24 ∧ 0x00#8 = 0x01#8) ∧ ¬ (0#24 = 0#24 ∧ 0xFF#8 = 0x01#8) := by decide

theorem witness_CommandsDecodeBackFromTheirWords :
    (Instr.fdct4x4.wellFormed = true ∧ encode .fdct4x4 = some 1#32) ∧
    ((Instr.reserved 0#32).wellFormed = true ∧ encode (.reserved 0#32) = some 0#32) := by decide

theorem witness_StepRunsTheDecodedCommand :
    (State.reset.turn.1 = .host ∧ State.reset.nextStmt = none) ∧
    ((State.reset.withFetchWord 32 1).turn.1 = .host ∧
      (State.reset.withFetchWord 32 1).nextStmt = some (.writeReg .cmd 1#32)) := by decide

theorem witness_BlockStepsOnlyWhilePending :
    (golden.turn.1 = .block ∧ golden.seq = .busy) ∧
    (({ State.reset with agenda := [.block] } : State).turn.1 = .block ∧
      ({ State.reset with agenda := [.block] } : State).seq = .idle) := by decide

theorem witness_CmdWriteFollowsTheRule :
    ((golden.seq = .busy ↔ golden.status.busy = true) ∧ golden.status.busy = true) ∧
    ((State.reset.seq = .busy ↔ State.reset.status.busy = true) ∧ State.reset.status.busy = false ∧
      ¬ (State.reset.nextOperands.addressOk State.reset.params = true ∧
        State.reset.nextOperands.windowsOverlap State.reset.params = true) ∧
      0x00000000#32 ≠ 0x00000001#32) := by decide

theorem witness_FdctIsAcceptedWhileIdle :
    State.reset.seq = .idle ∧ ¬ (State.reset.nextOperands.addressOk State.reset.params = true ∧
      State.reset.nextOperands.windowsOverlap State.reset.params = true) := by decide

theorem witness_ReservedCommandIsRejected :
    0x00000101#32 ≠ 0x00000001#32 ∧ State.reset.seq = .idle ∧ golden.seq = .busy := by decide

theorem witness_CommandWhileBusyIsDropped : golden.seq = .busy := by decide

/-- An idle machine with both spaces at byte 0 of one memory: coefficients from element 15 overlap, from 16 not. -/
def overlapping (outBase : Word) : State :=
  { machine { cfgLbd with platform := .shared 0 0 } with inStride := 4#32, outBase := outBase }

theorem witness_OverlappingLaunchIsRefused :
    ((overlapping 15).seq = .idle ∧ (overlapping 15).nextOperands.addressOk (overlapping 15).params = true ∧
      (overlapping 15).nextOperands.windowsOverlap (overlapping 15).params = true) ∧
    (overlapping 16).nextOperands.windowsOverlap (overlapping 16).params = false ∧
    cfgLbd.platform = .separate ∧ sharedParams.platform = .shared 0 64 := by decide

theorem witness_ErrorsChangeOnlyWhatTheyMay :
    ErrCode.addr ≠ .badCmd ∧ ErrCode.badCmd ≠ .ovf ∧ golden.params.platform = .separate ∧
    (31 < coefByteAddr golden.params 16 ∨ coefByteAddr golden.params 16 + 16 * golden.params.native.bytes ≤ 31) ∧
    coefByteAddr golden.params golden.operands.outBase + 16 * golden.params.native.bytes ≤ 32 := by decide

theorem witness_UndefinedRegisterAccessIsRefused :
    ¬ (2 = 4 ∧ 0x00 % 4 = 0 ∧ 0x00 ≤ 0x1C) ∧ ¬ (4 = 4 ∧ 0x02 % 4 = 0 ∧ 0x02 ≤ 0x1C) ∧
    ¬ (4 = 4 ∧ 0x20 % 4 = 0 ∧ 0x20 ≤ 0x1C) := by decide

theorem witness_ConfigReportsTheParameters :
    cfgLbd.legal = true ∧ cfgHbd.legal = true ∧ ({ cfgLbd with addrBits := 8, narrowMode := .wrap } : Params).legal = true ∧
    sharedParams.legal = true := by decide

theorem witness_WritesWhileBusyLeaveTheOperation :
    golden.seq = .busy ∧ (0x0C = 0x04 ∨ 0x0C = 0x08 ∨ 0x0C = 0x0C) ∧ ∃ t, completeOp golden = .next t :=
  ⟨rfl, by decide, next_of_after (by decide +kernel)⟩

theorem witness_WrapIsTheFittingResidue :
    1 ≤ 16 ∧ (-(2 ^ (16 - 1)) ≤ (-32641 : Int) ∧ (-32641 : Int) ≤ 2 ^ (16 - 1) - 1 ∧ (2 : Int) ^ 16 ∣ -32641 - 32895) := by decide

theorem witness_RoundShiftRoundsHalvesUp :
    1 ≤ cfgLbd.radix ∧ roundShift cfgLbd 5201665 = some 317 ∧ cfgLbd.radix = 14 := by decide

theorem witness_LoadScaleReadsTheWindow :
    (golden.seq = .busy ∧ golden.operands.addressOk golden.params = true ∧ golden.hist = []) ∧
    ({ golden with latInBase := 240#32 } : State).operands.addressOk golden.params = true ∧
    ({ golden with latInBase := 241#32 } : State).operands.addressOk golden.params = false := by decide

theorem witness_DcNudgeIsOneAtTheCorner :
    golden.seq = .busy ∧ golden.work.p.at 0 0 = 0 ∧ (working { zeroWork with p := blk [-16] }).work.p.at 0 0 ≠ 0 ∧
    (working { zeroWork with p := blk [-16] }).seq = .busy := by decide

/-- The last two constant vectors of 95_test_vectors.md 4.3 in W = 32: one fits, the next does not. -/
theorem witness_ButterflyFollowsTheRule :
    let fitting := working { zeroWork with p := blk [46341, 0, 0, 0, 46341, 0, 0, 0, 46341, 0, 0, 0, 46341] }
    let loudRow := working { zeroWork with t := blk [0, 0, 0, 0, 46342, 46342, 46342, 46341] }
    (fitting.seq = .busy ∧ (butterfly fitting.params (fitting.work.lane (.column 0))).isSome = true) ∧
    (loudRow.seq = .busy ∧ (butterfly loudRow.params (loudRow.work.lane (.row 1))).isSome = false) := by decide

theorem witness_RoundShiftOfAnAccumulator :
    let s := working { zeroWork with bf := { zeroWork.bf with t := ⟨0, 2147475455, 2147475456, 0⟩ } }
    s.seq = .busy ∧ fits s.params.workingBits (s.work.bf.t.get 1 + 2 ^ (s.params.radix - 1)) ∧
    ¬ fits s.params.workingBits (s.work.bf.t.get 2 + 2 ^ (s.params.radix - 1)) := by decide

theorem witness_NarrowStoresOrWrapsOrRaises :
    let s := working { zeroWork with bf := { zeroWork.bf with y := ⟨32767, 32768, -32768, -32769⟩ } }
    s.seq = .busy ∧ fits s.params.nativeBits (s.work.bf.y.get 0) ∧ fits s.params.nativeBits (s.work.bf.y.get 2) ∧
    ¬ fits s.params.nativeBits (s.work.bf.y.get 1) ∧ ¬ fits s.params.nativeBits (s.work.bf.y.get 3) ∧
    s.params.narrowMode = .fault ∧
    ({ s with params := { cfgLbd with narrowMode := .wrap } } : State).params.narrowMode = .wrap ∧
    ¬ fits ({ cfgLbd with narrowMode := .wrap } : Params).nativeBits (s.work.bf.y.get 3) := by decide

theorem witness_TransposeMovesEveryEntry : golden.seq = .busy := by decide

theorem witness_FinalNormDividesByFour :
    let s := working { zeroWork with z := blk [-32768, 32767] }
    s.seq = .busy ∧ (∀ r c : Fin 4, fits s.params.nativeBits (s.work.z.at r c)) ∧
    ((0 : Int) ≤ 0 ∧ (0 : Int) ≤ 3) ∧ ((0 : Int) ≤ 3 ∧ (3 : Int) ≤ 3) := by decide

theorem witness_MicroOperationsNeedAnOperation :
    Instr.isCommand .loadScale = false ∧ Instr.isCommand (.narrow (.row 3) 3) = false ∧ State.reset.seq = .idle := by decide

theorem witness_FdctIsTheTwoPassPipeline :
    (∀ r c : Fin 4, fits 16 ((blk [32767, -32768, 1]).at r c)) ∧ (fdct cfgHbd (blk [32767, -32768, 1])).isSome = true := by decide

theorem witness_CompletionCommitsFdct :
    golden.seq = .busy ∧ golden.operands.addressOk golden.params = true ∧ golden.quiet ∧
    (fdct golden.params (Blk.ofFn fun r c => golden.sample (golden.operands.sampleAddr r c).toNat)).map Blk.flat =
      some [272, -36, 0, -3, -143, 0, 0, 0, 0, 0, 0, 0, -10, 0, 0, 0] := by decide +kernel

/-- An idle machine whose registers select the last four samples, with stride 0, and the last window. -/
def atTheEdge : State := { State.withSamples State.reset 252 [1, 2, 3, 4] with inBase := 252#32, outBase := 48#32 }

theorem witness_CommandThenCompletionTransforms :
    atTheEdge.seq = .idle ∧ atTheEdge.nextOperands.addressOk atTheEdge.params = true ∧
    atTheEdge.nextOperands.windowsOverlap atTheEdge.params = false ∧
    (fdct atTheEdge.params (Blk.ofFn fun r c => atTheEdge.sample (atTheEdge.nextOperands.sampleAddr r c).toNat)).map Blk.flat =
      some [80, -36, 0, -3, 0, 0, 0, 0, 0, 0, 0, 0, 0, 0, 0, 0] := by decide +kernel

theorem witness_AddressErrorTouchesNoMemory :
    golden.seq = .busy ∧ ({ golden with latOutBase := 49#32 } : State).operands.addressOk golden.params = false ∧
    ({ golden with latOutBase := 48#32 } : State).operands.addressOk golden.params = true ∧
    ({ golden with latInBase := 253#32, latInStride := 0#32 } : State).operands.addressOk golden.params = false ∧
    ({ golden with latInBase := 252#32, latInStride := 0#32 } : State).operands.addressOk golden.params = true := by decide

theorem witness_OverflowReachesTheWindowOnly :
    loud.seq = .busy ∧ loud.operands.addressOk loud.params = true ∧ (fdct loud.params loud.window).isSome = false ∧
    loud.params.platform = .separate ∧ sharedParams.isShared = true := by decide +kernel

/-- The golden operation after agents wrote sample 0 and coefficient 5 during BUSY. -/
def raced : State := { golden with hist := [(State.withSamples State.reset 0 [9]).smem], raced := [(10, 1#8), (11, 0#8)] }

theorem witness_RacedOperationMixesOldAndNew :
    raced.seq = .busy ∧ raced.operands.addressOk raced.params = true ∧ raced.coefRaced 5 = true ∧
    raced.coefRaced 4 = false ∧ raced.coefRaced 6 = false ∧ raced.writerCoef 5 = 1 := by decide

theorem witness_RacedOperationMixesOldAndNew_result : ∃ o, fdct golden.params golden.window = some o :=
  Option.isSome_iff_exists.1 (by decide +kernel)

theorem witness_EarlierStorageReachesNoResult : golden.seq = .busy ∧ ∃ t, completeOp golden = .next t :=
  ⟨rfl, next_of_after (by decide +kernel)⟩

/-- Two operations with the same samples at other places and strides, and another window. -/
theorem witness_ResultDependsOnSamplesAlone :
    let s := State.running (State.withSamples State.reset 252 [1, 2, 3, 4]) 252 0 48
    let t := State.running (State.withSamples State.reset 0 [1, 2, 3, 4, 1, 2, 3, 4, 1, 2, 3, 4, 1, 2, 3, 4]) 0 4 0
    s.params = t.params ∧ s.seq = .busy ∧ t.seq = .busy ∧ s.quiet ∧ t.quiet ∧
    s.operands.addressOk s.params = true ∧ t.operands.addressOk t.params = true ∧
    (∀ r c : Fin 4, s.sample (s.operands.sampleAddr r c).toNat = t.sample (t.operands.sampleAddr r c).toNat) := by decide +kernel

theorem witness_BlockNeverWritesSamples :
    golden.params.platform = .separate ∧ (∃ t, exec .transpose golden = .next t) ∧ ∃ t, completeOp golden = .next t :=
  ⟨rfl, ⟨_, rfl⟩, next_of_after (by decide +kernel)⟩

theorem witness_LegalInputNeverOverflows :
    cfgLbd.defaultTable = true ∧ cfgHbd.defaultTable = true ∧ cfgHbd.native = .l32 ∧ cfgHbd.working = .w64 ∧
    (∀ r c : Fin 4, -255 ≤ (blk [255, -255]).at r c ∧ (blk [255, -255]).at r c ≤ 255) ∧
    (∀ r c : Fin 4, -1023 ≤ (blk [1023, -1023]).at r c ∧ (blk [1023, -1023]).at r c ≤ 1023) ∧
    (∀ r c : Fin 4, -4095 ≤ (blk [4095, -4095]).at r c ∧ (blk [4095, -4095]).at r c ≤ 4095) ∧
    (∀ r c : Fin 4, fits 16 ((blk [32767, -32768]).at r c)) := by decide

theorem witness_ZeroBlockGivesZeros : cfgLbd.legal = true ∧ cfgHbd.legal = true := by decide

theorem witness_ConstantBlockHasOnlyDc :
    cfgHbd.defaultTable = true ∧ cfgHbd.native = .l32 ∧ cfgHbd.working = .w64 ∧ fits 16 (-32768) ∧ fits 16 32767 ∧
    ((-178 : Int) ≤ -178 ∧ (178 : Int) ≤ 178) := by decide

/-- The golden operation with the reset input next, and an idle machine with it. -/
theorem witness_ResetEventAbandonsAndClears :
    ({ golden with agenda := [.reset] } : State).turn.1 = .reset ∧ golden.seq = .busy ∧
    ({ State.reset with agenda := [.reset] } : State).turn.1 = .reset ∧ State.reset.seq = .idle ∧
    golden.params.platform = .separate ∧
    coefByteAddr golden.params golden.operands.outBase + 16 * golden.params.native.bytes ≤ 32 := by decide

theorem witness_EveryStepKeepsTheInvariant : golden.Inv ∧ ∃ t, step golden = .next t :=
  ⟨{ legal := by decide
     statusAgrees := by decide
     busyMirrors := by decide
     inBaseMasked := by decide
     outBaseMasked := by decide
     latInBaseMasked := by decide
     latOutBaseMasked := by decide
     workFits :=
      { p := by decide
        i := by decide
        t := by decide
        z := by decide
        o := by decide
        bf := ⟨by decide, by decide, by decide, by decide, by decide, by decide, by decide, by decide, by decide,
          by decide, by decide⟩ }
     smemWf := by decide +kernel
     cmemWf := by decide
     histWf := by decide
     varsWf := by decide
     idleQuiet := by decide
     windowsApart := by decide
     unseenRecord := by decide },
   next_of_after (by decide +kernel)⟩

theorem witness_ParametersNeverChange : ∃ t, step golden = .next t := next_of_after (by decide +kernel)

/-- One step for each of the three events. -/
theorem witness_OnlyThreeEventsWriteStatus :
    after (step (State.reset.withFetchWord 32 1)) (fun t => decide (t.status ≠ State.reset.status)) = some true ∧
    after (step golden) (fun t => decide (t.status ≠ golden.status)) = some true ∧
    after (step { golden with agenda := [.reset] }) (fun t => decide (t.status ≠ golden.status)) = some true := by decide +kernel

theorem witness_LatchesChangeOnlyAtAcceptance :
    after (step (State.withFetchWord atTheEdge 32 1)) (fun t => decide (t.latInBase = atTheEdge.latInBase)) = some false := by decide +kernel

theorem witness_CompletionAlwaysEndsTheOperation : golden.seq = .busy ∧ loud.seq = .busy := by decide

/-- Two host turns, in which the host has nothing to do, then the block's. -/
theorem witness_BusyOperationEventuallyEnds :
    golden.seq = .busy ∧
    ∃ u, Host.Core.run Sys2Proof.core 3 { golden with agenda := [.host, .host] } = .next u :=
  ⟨rfl, next_of_after (by decide +kernel)⟩

theorem witness_HostSampleWriteLands :
    255 < golden.params.sampleWords ∧ golden.meetsUnseen false (sampleByteAddr golden.params 255) 2 = false ∧
    golden.seq = .busy := by decide

/-- A shared memory with a completed, unseen window: a write of its last element meets it, one past it does not. -/
theorem witness_CoefficientWriteLandsOrNot :
    63 < golden.params.coefWords ∧ (62 ≠ 63) ∧ golden.seq = .busy ∧
    ({ golden with unseen := [⟨48, List.replicate 16 7⟩] } : State).meetsUnseen true (coefByteAddr golden.params 63) golden.params.native.bytes = true ∧
    ({ golden with unseen := [⟨48, List.replicate 16 7⟩] } : State).meetsUnseen true (coefByteAddr golden.params 47) golden.params.native.bytes = false ∧
    ({ golden with unseen := [⟨48, List.replicate 16 7⟩] } : State).operationValue 63 = some 7 ∧
    golden.params.platform = .separate := by decide

/-- An element of the running window that an older window, unseen with value 7, covers too: a host write of 9 leaves 9
or 7 there, and in either case 9 is what the commit may leave instead of its own value (20_memory.md R58 item 5). -/
theorem test_raced_element_keeps_the_writers_value :
    let s : State := { golden with unseen := [⟨0, List.replicate 16 7⟩] }
    let a := coefByteAddr s.params 5
    let t := s.land true a (coefBytes s.params 9)
    let u := (t.noteSamples true).restore (s.unseenElements a s.params.native.bytes)
    t.coef 5 = 9 ∧ u.coef 5 = 7 ∧ t.writerCoef 5 = 9 ∧ u.writerCoef 5 = 9 ∧ u.coefRaced 5 = true := by decide

theorem witness_CoefficientReadsAreTrueAfterDone :
    63 < golden.params.coefWords ∧
    golden.meetsRunning true (coefByteAddr golden.params 15) golden.params.native.bytes = true ∧
    golden.meetsRunning true (coefByteAddr golden.params 16) golden.params.native.bytes = false ∧
    golden.meetsUnseen true (coefByteAddr golden.params 16) golden.params.native.bytes = false := by decide

theorem witness_DoneReadPublishesTheResults :
    ({ State.reset with status := .completed 0#4, unseen := [⟨0, List.replicate 16 7⟩] } : State).seq = .idle ∧
    ({ State.reset with status := .completed 0#4, unseen := [⟨0, List.replicate 16 7⟩] } : State).status.done = true ∧
    63 < State.reset.params.coefWords := by decide

theorem witness_HostAccessOutsideTheSpacesFaults :
    State.reset.params.sampleWords ≤ 256 ∧ State.reset.params.coefWords ≤ 64 := by decide

/-- A polling loop: the label at place 0, which the branch names. -/
theorem witness_HostBranchesFollowTheMask :
    let s : State := { State.reset with host := ⟨pseudoWait 5 0, 3, [(0, 1#32)]⟩ }
    s.host.prog[0]? = some (.label 5) ∧ (∀ j < 0, s.host.prog[j]? ≠ some (.label 5)) ∧
    s.hostVar 0 &&& 1#32 ≠ 0#32 ∧ s.hostVar 0 &&& 2#32 = 0#32 := by decide

end Sys2Proof.Tests
end

section
/-! PROOFS. The scope's statements: `wrap_N` (00_scope.md R11), a host write of a sample (R14), the named configurations
(R9). -/

namespace Sys2Proof.Machine

open Sys2Proof

/-! ### wrap_N -/

theorem dvd_wrap_sub (n : Nat) (v : Int) : (2 : Int) ^ n ∣ wrap n v - v := by
  have h : ((2 ^ n : Nat) : Int) ∣ Int.bmod v (2 ^ n) - v := Int.dvd_bmod_sub_self
  rw [← pow2_eq]
  exact h

/-- Congruent integers have the same wrapped value. -/
theorem wrap_congr {n : Nat} {v w : Int} (h : (2 : Int) ^ n ∣ w - v) : wrap n w = wrap n v := by
  rw [← pow2_eq] at h
  rw [← wrap_emod n w, ← wrap_emod n v, Int.emod_eq_emod_iff_emod_sub_eq_zero.2 (Int.emod_eq_zero_of_dvd h)]

/-- Settles O21: an integer that fits is its own wrapped value, and congruent integers share theirs. -/
theorem wrapIsTheFittingResidue : Obligations.WrapIsTheFittingResidue := by
  intro n v hn
  have fits_iff (w : Int) : fits n w ↔ -(2 ^ (n - 1)) ≤ w ∧ w ≤ 2 ^ (n - 1) - 1 := by
    rw [fits, pow2_eq]
  refine ⟨(fits_iff _).1 (fits_wrap hn v), dvd_wrap_sub n v, fun w hl hu hd => ?_⟩
  calc w = wrap n w := (wrap_of_fits hn ((fits_iff w).2 ⟨hl, hu⟩)).symm
    _ = wrap n v := wrap_congr hd

/-! ### A write that lands in the sample space -/

/-- A sample write that lands is a store in the sample memory and a record of races, and nothing else. -/
theorem State.land_samples (s : State) (a : Nat) (bs : List Byte) :
    s.land false a bs =
      { s with
        smem := s.smem.store a bs
        hist := (s.land false a bs).hist
        raced := (s.land false a bs).raced } := by
  cases h : s.seq with
  | idle => rw [State.land_idle h, ← h]; rfl
  | busy => rw [State.land_busy h, ← h]; rfl

theorem State.land_samples_smem (s : State) (a : Nat) (bs : List Byte) :
    (s.land false a bs).smem = s.smem.store a bs := by
  rw [State.land_samples]

theorem State.land_samples_cmem (s : State) (a : Nat) (bs : List Byte) : (s.land false a bs).cmem = s.cmem := by
  rw [State.land_samples]

/-- While an operation runs, a sample write remembers the contents before it (20_memory.md R58 item 5). -/
theorem State.land_samples_hist {s : State} (hb : s.seq = .busy) (a : Nat) (bs : List Byte) :
    (s.land false a bs).hist = s.smem :: s.hist := by
  simp [State.land_busy hb, reachesSamples]

/-- Sample bytes read as the signed value they were made of, in either byte order (20_memory.md R50). -/
theorem sext_bytesElement_sample (o : ByteOrder) (v : BitVec 16) :
    sext 16 (bytesElement o (elementBytes o 2 v.toNat)) = v.toInt := by
  have hlt : v.toNat < 256 ^ 2 := v.isLt
  rw [bytesElement_elementBytes, Nat.mod_eq_of_lt hlt, BitVec.toInt_eq_toNat_bmod]
  rfl

/-- A sample written at its place is read back (00_scope.md R14). -/
theorem sampleIn_store (p : Params) (m : Memory) (a : Nat) (v : BitVec 16) :
    sampleIn p (m.store (sampleByteAddr p a) (elementBytes p.byteOrder 2 v.toNat)) a = v.toInt := by
  have hl := Memory.load_store m (sampleByteAddr p a) (elementBytes p.byteOrder 2 v.toNat)
  rw [length_elementBytes] at hl
  rw [sampleIn, hl, sext_bytesElement_sample]

/-- Outside the windows not yet seen DONE, a host write of a sample lands. -/
theorem hostAction_mwS_lands {s : State} {a : Nat} (ha : a < s.params.sampleWords)
    (hu : s.meetsUnseen false (sampleByteAddr s.params a) 2 = false) (v : BitVec 16) :
    hostAction (.mwS a v) s =
      .next (s.land false (sampleByteAddr s.params a) (elementBytes s.params.byteOrder 2 v.toNat)) := by
  have lands := hostStore_cases s false (sampleByteAddr s.params a) (elementBytes s.params.byteOrder 2 v.toNat)
  rw [length_elementBytes, hu] at lands
  obtain ⟨-, lands⟩ | ⟨hm, -⟩ := lands
  · rw [hostAction, if_pos ha, lands]
  · cases hm

/-- Settles O55: the write lands, and what a landed sample write leaves is said field by field. -/
theorem hostSampleWriteLands : Obligations.HostSampleWriteLands := by
  intro s a v ha hu
  refine ⟨_, hostAction_mwS_lands ha hu v, ?_, ?_, ?_, ?_, ?_⟩
  · rw [State.sample, State.land_params, State.land_samples_smem, sampleIn_store]
  · intro x hx
    rw [State.land_samples_smem, Memory.read_store_outside]
    rwa [length_elementBytes]
  · exact State.land_samples_cmem s _ _
  · exact fun hb => State.land_samples_hist hb _ _
  · rw [State.land_samples_smem]
    exact State.land_samples s _ _

/-! ### The named configurations -/

/-- Settles O24: both tuples are closed terms, so each clause is a computation. -/
theorem namedConfigurationsAreLegal : Obligations.NamedConfigurationsAreLegal := by
  unfold Obligations.NamedConfigurationsAreLegal
  decide

end Sys2Proof.Machine
end

section
/-! PROOFS. The completion step as one function of the state (46_transform.md R221), and what it does not depend on: the
operand registers (10_state.md R32) and the earlier working storage (R35). -/

namespace Sys2Proof.Machine

open Sys2Proof

/-- Where the completion step of a running operation ends (`completeOp_eq`): E_ADDR, the commit of FDCT, or E_OVF. Of the
working storage the commit reads O alone. -/
def State.afterCompletion (s : State) : State :=
  if s.operands.addressOk s.params then
    match fdct s.params s.window with
    | some o => (({ s with work := { s.work with o := o } } : State).drawn 16).commit
    | none => (s.drawn 16).raiseError .ovf
  else s.raiseError .addr

theorem State.afterCompletion_addr {s : State} (hok : s.operands.addressOk s.params = false) :
    s.afterCompletion = s.raiseError .addr := by
  simp [State.afterCompletion, hok]

theorem State.afterCompletion_commit {s : State} {o : Blk Int} (hok : s.operands.addressOk s.params = true)
    (hf : fdct s.params s.window = some o) :
    s.afterCompletion = (({ s with work := { s.work with o := o } } : State).drawn 16).commit := by
  simp [State.afterCompletion, hok, hf]

theorem State.afterCompletion_ovf {s : State} (hok : s.operands.addressOk s.params = true)
    (hf : fdct s.params s.window = none) : s.afterCompletion = (s.drawn 16).raiseError .ovf := by
  simp [State.afterCompletion, hok, hf]

/-- Of the working storage the commit reads O alone. -/
theorem State.commit_work_congr (s : State) {w w' : Work} (h : w.o = w'.o) :
    ({ s with work := w } : State).commit = ({ s with work := w' } : State).commit :=
  (State.commit_regs { s with work := w' } s.inBase s.inStride s.outBase w h).trans
    (State.commit_regs { s with work := w' } s.inBase s.inStride s.outBase w' rfl).symm

/-- An overflow ends the operation alike whatever the working storage held. -/
theorem State.raiseError_ovf_work (s : State) (w : Work) :
    ({ s with work := w } : State).raiseError .ovf = s.raiseError .ovf :=
  (State.raiseError_ovf_regs s s.inBase s.inStride s.outBase w).trans
    (State.raiseError_ovf_regs s s.inBase s.inStride s.outBase s.work).symm

theorem completeOp_eq {s : State} (hb : s.seq = .busy) : completeOp s = .next s.afterCompletion := by
  obtain ⟨hok, h⟩ | ⟨hok, o, w, hf, hw, h⟩ | ⟨hok, hf, w, h⟩ := completeOp_cases hb
  · rw [h, State.afterCompletion_addr hok]
  · rw [h, State.afterCompletion_commit hok hf]
    exact congrArg Host.Outcome.next (State.commit_work_congr (s.drawn 16) hw)
  · rw [h, State.afterCompletion_ovf hok hf]
    exact congrArg Host.Outcome.next (State.raiseError_ovf_work (s.drawn 16) w)

/-- What the block's turn can do (10_state.md R20). -/
theorem completeOp_next {s t : State} (h : completeOp s = .next t) :
    (s.seq = .idle ∧ t = s) ∨ (s.seq = .busy ∧ t = s.afterCompletion) := by
  cases hs : s.seq with
  | idle => exact .inl ⟨rfl, (Host.Outcome.next.inj ((completeOp_idle hs).symm.trans h)).symm⟩
  | busy => exact .inr ⟨rfl, (Host.Outcome.next.inj ((completeOp_eq hs).symm.trans h)).symm⟩

/-- The completion step reads neither the operand registers nor the working storage, and leaves the registers. -/
theorem State.afterCompletion_regs (s : State) (x y z : Word) (w : Work) :
    ({ s with inBase := x, inStride := y, outBase := z, work := w } : State).afterCompletion =
      { s.afterCompletion with inBase := x, inStride := y, outBase := z } := by
  let u : State := { s with inBase := x, inStride := y, outBase := z, work := w }
  cases hok : s.operands.addressOk s.params with
  | false =>
    have hu : u.afterCompletion = u.raiseError .addr := State.afterCompletion_addr hok
    rw [hu, State.afterCompletion_addr hok]
    rfl
  | true =>
    cases hf : fdct s.params s.window with
    | none =>
      have hu : u.afterCompletion = (u.drawn 16).raiseError .ovf := State.afterCompletion_ovf hok hf
      rw [hu, State.afterCompletion_ovf hok hf]
      exact State.raiseError_ovf_regs (s.drawn 16) x y z w
    | some o =>
      have hu : u.afterCompletion = (({ u with work := { w with o := o } } : State).drawn 16).commit :=
        State.afterCompletion_commit hok hf
      rw [hu, State.afterCompletion_commit hok hf]
      exact State.commit_regs (({ s with work := { s.work with o := o } } : State).drawn 16) x y z { w with o := o } rfl

/-- While an operation runs, the completion step on a state with other registers and working storage ends as without,
but for these. -/
theorem completeOp_regs {s t : State} (hb : s.seq = .busy) (h : completeOp s = .next t) (x y z : Word) (w : Work) :
    completeOp { s with inBase := x, inStride := y, outBase := z, work := w } =
      .next { t with inBase := x, inStride := y, outBase := z } := by
  obtain rfl := Host.Outcome.next.inj ((completeOp_eq hb).symm.trans h)
  rw [completeOp_eq (by exact hb), State.afterCompletion_regs]

/-- While an operation runs, the completion step ends alike whatever the working storage holds. -/
theorem completeOp_work {s t : State} (hb : s.seq = .busy) (h : completeOp s = .next t) (w : Work) :
    completeOp { s with work := w } = .next t :=
  calc completeOp { s with work := w }
      = .next { t with inBase := s.inBase, inStride := s.inStride, outBase := s.outBase } :=
        completeOp_regs hb h s.inBase s.inStride s.outBase w
    _ = completeOp s := (completeOp_regs hb h s.inBase s.inStride s.outBase s.work).symm
    _ = .next t := h

/-- Settles O39: the completion step ends in the very same state, its working storage (free values) included. -/
theorem earlierStorageReachesNoResult : Obligations.EarlierStorageReachesNoResult :=
  fun _ t w hb ht => ⟨t.work, completeOp_work hb ht w⟩

end Sys2Proof.Machine
end

section
/-! PROOFS. Every operation keeps the invariant, the machine after reset meets it, and so every step keeps it. -/

namespace Sys2Proof.Machine

open Sys2Proof

/-! ### Updates the invariant does not speak of -/

theorem State.Inv.agenda {s : State} (h : s.Inv) (l : List Turn) : ({ s with agenda := l } : State).Inv := { h with }

theorem State.Inv.hostPc {s : State} (h : s.Inv) (n : Nat) :
    ({ s with host := { s.host with pc := n } } : State).Inv := { h with }

theorem State.Inv.drawn {s : State} (h : s.Inv) (k : Nat) : (s.drawn k).Inv := { h with }

/-! ### Registers and host variables -/

theorem State.Inv.setHostVar {s : State} (h : s.Inv) (x : Nat) (v : Word) : (s.setHostVar x v).Inv :=
  { h with varsWf := Table.put_wf 0#32 h.varsWf x v }

theorem State.Inv.observe {s : State} (h : s.Inv) (offset : Nat) : (s.observe offset).Inv := by
  unfold State.observe
  split
  · exact { h with unseenRecord := by simp }
  · exact h

/-- A register takes a value with its reserved bits 0 (10_state.md R26, R28). -/
theorem State.Inv.writeReg {s : State} (h : s.Inv) (offset : Nat) (v : Word) : (s.writeReg offset v).Inv := by
  obtain e | e | e | e := writeReg_cases s offset v <;> rw [e]
  · exact { h with inBaseMasked := maskAddr_maskAddr s.params v }
  · exact { h with }
  · exact { h with outBaseMasked := maskAddr_maskAddr s.params v }
  · exact h

/-! ### Memories -/

theorem State.Inv.coefMemWf {s : State} (h : s.Inv) : s.coefMem.wf := by
  unfold State.coefMem
  split
  · exact h.cmemWf
  · exact h.smemWf

theorem State.Inv.setCoefMem {s : State} (h : s.Inv) {m : Memory} (hm : m.wf) : (s.setCoefMem m).Inv := by
  unfold State.setCoefMem
  split
  · exact { h with cmemWf := hm }
  · exact { h with smemWf := hm }

theorem State.Inv.writeCoef {s : State} (h : s.Inv) (a : Nat) (v : Int) : (s.writeCoef a v).Inv :=
  h.setCoefMem (Memory.store_wf h.coefMemWf _ _)

theorem State.Inv.writeCoefs {s : State} (h : s.Inv) (a : Nat) (vs : List Int) : (s.writeCoefs a vs).Inv := by
  induction vs generalizing s a with
  | nil => exact h
  | cons v rest ih => exact ih (h.writeCoef a v) (a + 1)

theorem State.Inv.restore {s : State} (h : s.Inv) (es : List Nat) : (s.restore es).Inv := by
  induction es generalizing s with
  | nil => exact h
  | cons e rest ih =>
    unfold State.restore
    split
    · exact ih (h.writeCoef e _)
    · exact ih h

theorem State.Inv.putBytes {s : State} (h : s.Inv) (coef : Bool) (a : Nat) (bs : List Byte) :
    (s.putBytes coef a bs).Inv := by
  unfold State.putBytes
  split
  · exact h.setCoefMem (Memory.store_wf h.coefMemWf a bs)
  · exact { h with smemWf := Memory.store_wf h.smemWf a bs }

theorem State.Inv.freeWindow {s : State} (h : s.Inv) : s.freeWindow.Inv :=
  (h.writeCoefs _ _).drawn 16

/-! ### The record of races -/

theorem State.Inv.noteSamples {s : State} (h : s.Inv) (coef : Bool) : (s.noteSamples coef).Inv := by
  unfold State.noteSamples
  split
  · exact h
  · rename_i hb
    refine { h with histWf := ?_, idleQuiet := fun hi => absurd (hb.symm.trans hi) (by decide) }
    dsimp only
    split
    · exact List.forall_mem_cons.2 ⟨h.smemWf, h.histWf⟩
    · exact h.histWf

theorem State.Inv.noteRaced {s : State} (h : s.Inv) (coef : Bool) (a : Nat) (bs : List Byte) :
    (s.noteRaced coef a bs).Inv := by
  unfold State.noteRaced
  split
  · exact h
  · rename_i hb
    exact { h with idleQuiet := fun hi => absurd (hb.symm.trans hi) (by decide) }

theorem State.Inv.land {s : State} (h : s.Inv) (coef : Bool) (a : Nat) (bs : List Byte) : (s.land coef a bs).Inv :=
  ((h.noteSamples coef).noteRaced coef a bs).putBytes coef a bs

theorem State.Inv.hostStore {s : State} (h : s.Inv) (coef : Bool) (a : Nat) (bs : List Byte) :
    (s.hostStore coef a bs).Inv := by
  obtain ⟨-, e⟩ | ⟨-, e | e⟩ := hostStore_cases s coef a bs <;> rw [e]
  · exact h.land coef a bs
  · exact (h.land coef a bs).drawn 1
  · exact (((h.land coef a bs).noteSamples coef).restore _).drawn 1

/-! ### Beginning and ending an operation -/

@[simp] theorem State.accept_operands (s : State) : s.accept.operands = s.nextOperands := rfl

/-- An accepted launch keeps its windows apart, or lacks one of them (20_memory.md R64). -/
theorem State.Inv.accept {s : State} (h : s.Inv)
    (hw : ¬ (s.nextOperands.addressOk s.params = true ∧ s.nextOperands.windowsOverlap s.params = true)) :
    s.accept.Inv :=
  { h with
    statusAgrees := rfl
    busyMirrors := ⟨fun _ => rfl, fun _ => rfl⟩
    latInBaseMasked := maskAddr_maskAddr s.params s.inBase
    latOutBaseMasked := maskAddr_maskAddr s.params s.outBase
    histWf := by simp
    idleQuiet := fun _ => ⟨rfl, rfl⟩
    windowsApart := fun _ hok => Bool.eq_false_iff.2 fun ho => hw ⟨hok, ho⟩ }

theorem Status.completed_agrees {code : BitVec 4} (hc : code.toNat ≤ 3) : (Status.completed code).agrees = true := by
  simp [Status.agrees, Status.completed, hc]

/-- A rejected command starts no operation (60_exceptions.md R301). -/
theorem State.Inv.raiseError_badCmd {s : State} (h : s.Inv) (hi : s.seq = .idle) : (s.raiseError .badCmd).Inv := by
  rw [State.raiseError_badCmd]
  exact { h with
    statusAgrees := Status.completed_agrees (by decide)
    busyMirrors := by simp [hi, Status.completed] }

/-- An operation ends with a code that is not reserved and a record of no value or sixteen of L bits. -/
theorem State.Inv.finish {s : State} (h : s.Inv) {code : BitVec 4} (hc : code.toNat ≤ 3) {vs : List Int}
    (hv : vs = [] ∨ (vs.length = 16 ∧ ∀ v ∈ vs, fits s.params.nativeBits v)) : (s.finish code vs).Inv :=
  { h with
    statusAgrees := Status.completed_agrees hc
    busyMirrors := by simp [Status.completed]
    workFits := freeWork_fits s.params s.draws
    histWf := by simp
    idleQuiet := fun _ => ⟨rfl, rfl⟩
    unseenRecord := List.forall_mem_cons.2 ⟨hv, h.unseenRecord⟩
    windowsApart := fun hb => by cases hb }

theorem State.Inv.raiseError_addr {s : State} (h : s.Inv) : (s.raiseError .addr).Inv :=
  h.finish (by decide) (.inl rfl)

theorem State.Inv.raiseError_ovf {s : State} (h : s.Inv) : (s.raiseError .ovf).Inv := by
  refine h.freeWindow.finish (by decide) (.inr ?_)
  rw [State.freeWindow_params]
  exact s.freeCoefs_record

theorem State.Inv.commit {s : State} (h : s.Inv) {x : Blk Int} (hf : fdct s.params x = some s.work.o) :
    s.commit.Inv := by
  refine ((h.writeCoefs _ _).drawn 16).finish (by decide) (.inr ?_)
  rw [State.drawn_params, State.writeCoefs_params]
  exact fdct_record hf

theorem State.Inv.afterCompletion {s : State} (h : s.Inv) : s.afterCompletion.Inv := by
  cases hok : s.operands.addressOk s.params with
  | false => rw [State.afterCompletion_addr hok]; exact h.raiseError_addr
  | true =>
    cases hf : fdct s.params s.window with
    | none => rw [State.afterCompletion_ovf hok hf]; exact (h.drawn 16).raiseError_ovf
    | some o =>
      rw [State.afterCompletion_commit hok hf]
      have hw : ({ s with work := { s.work with o := o } } : State).Inv :=
        { h with workFits := { h.workFits with o := fdct_fits hf } }
      exact (hw.drawn 16).commit hf

theorem State.Inv.clearBlock {s : State} (h : s.Inv) : s.clearBlock.Inv :=
  { h with
    statusAgrees := rfl
    busyMirrors := by simp [Status.zero]
    inBaseMasked := maskAddr_maskAddr s.params _
    outBaseMasked := maskAddr_maskAddr s.params _
    latInBaseMasked := maskAddr_maskAddr s.params _
    latOutBaseMasked := maskAddr_maskAddr s.params _
    workFits := freeWork_fits s.params _
    histWf := by simp
    idleQuiet := fun _ => ⟨rfl, rfl⟩
    windowsApart := fun hb => by cases hb }

theorem State.Inv.resetEvent {s : State} (h : s.Inv) : s.resetEvent.Inv := by
  unfold State.resetEvent
  split
  · exact h.freeWindow.clearBlock
  · exact h.clearBlock

/-! ### The turns -/

theorem State.Inv.exec_decode {s t : State} {w : Word} (h : s.Inv) (ht : exec (decode w) s = .next t) : t.Inv := by
  obtain ⟨-, rfl⟩ | ⟨-, -, rfl, hw⟩ | ⟨hi, -, rfl⟩ := exec_decode_cases ht
  · exact h
  · exact h.accept hw
  · exact h.raiseError_badCmd hi

theorem State.Inv.hostAction {s t : State} {st : HostStmt} (h : s.Inv) (ht : hostAction st s = .next t) : t.Inv := by
  obtain ⟨w, -, ht⟩ | ⟨offset, v, -, -, rfl⟩ | ⟨dst, offset, -, rfl⟩ | ⟨coef, a, bs, rfl⟩ | ⟨dst, v, rfl⟩ | ⟨n, rfl⟩ :=
    hostAction_cases ht
  · exact h.exec_decode ht
  · exact h.writeReg offset v
  · exact (h.observe offset).setHostVar dst _
  · exact h.hostStore coef a bs
  · exact (h.setHostVar dst _).drawn 1
  · exact h.hostPc n

theorem State.Inv.hostTurn {s t : State} (h : s.Inv) (ht : hostTurn s = .next t) : t.Inv := by
  unfold Machine.hostTurn at ht
  split at ht
  · exact (h.hostPc _).hostAction ht
  · exact Host.Outcome.next.inj ht ▸ h

theorem State.Inv.completeOp {s t : State} (h : s.Inv) (ht : completeOp s = .next t) : t.Inv := by
  obtain ⟨-, rfl⟩ | ⟨-, rfl⟩ := completeOp_next ht
  · exact h
  · exact h.afterCompletion

theorem State.Inv.takeTurn {s t : State} (h : s.Inv) (turn : Turn) (ht : takeTurn turn s = .next t) : t.Inv := by
  cases turn with
  | host => exact h.hostTurn ht
  | block => exact h.completeOp ht
  | reset => exact Host.Outcome.next.inj ht ▸ h.resetEvent

/-- Settles O49: a step is one turn, and every turn keeps the invariant. -/
theorem everyStepKeepsTheInvariant : Obligations.EveryStepKeepsTheInvariant := by
  intro s t h ht
  rw [step_eq] at ht
  exact (h.agenda s.turn.2).takeTurn s.turn.1 ht

/-- Settles O48: the state after reset is a closed term, so each clause is a computation. -/
theorem resetStateMeetsTheInvariant : Obligations.ResetStateMeetsTheInvariant where
  legal := by decide
  statusAgrees := by decide
  busyMirrors := by decide
  inBaseMasked := by decide
  outBaseMasked := by decide
  latInBaseMasked := by decide
  latOutBaseMasked := by decide
  workFits :=
    { p := by decide, i := by decide, t := by decide, z := by decide, o := by decide
      bf := by constructor <;> decide }
  smemWf := by decide
  cmemWf := by decide
  histWf := by decide
  varsWf := by decide
  idleQuiet := by decide
  unseenRecord := by decide
  windowsApart := by decide

end Sys2Proof.Machine
end

section
/-! PROOFS. The register block: what each access does, the bits of STATUS and CONFIG, the CMD write, and what a write
during BUSY reaches. -/

namespace Sys2Proof.Machine

open Sys2Proof

/-! ### Register accesses -/

theorem regAccessDefined_iff (offset size : Nat) :
    regAccessDefined offset size = true ↔ size = 4 ∧ offset % 4 = 0 ∧ offset ≤ 0x1C := by
  simp only [regAccessDefined, Bool.and_eq_true, beq_iff_eq, decide_eq_true_eq]
  omega

theorem hostAction_writeReg_cmd (w : Word) (s : State) : hostAction (.writeReg .cmd w) s = exec (decode w) s := rfl

theorem hostAction_wr {offset : Nat} (hd : regAccessDefined offset 4 = true) (h0 : offset ≠ 0) (v : Word) (s : State) :
    hostAction (.wr offset 4 v) s = .next (s.writeReg offset v) := by
  simp [hostAction, hd, h0]

theorem hostAction_rd {offset : Nat} (hd : regAccessDefined offset 4 = true) (dst : Nat) (s : State) :
    hostAction (.rd dst offset 4) s = .next ((s.observe offset).setHostVar dst (s.readReg offset)) := by
  simp [hostAction, hd]

theorem State.observe_of_ne {offset : Nat} (h : offset ≠ 0x10) (s : State) : s.observe offset = s := by
  simp [State.observe, h]

theorem State.observe_status (s : State) :
    s.observe 0x10 = { s with unseen := if s.status.done = true then [] else s.unseen } := by
  cases h : s.status.done <;> simp [State.observe, h]

/-- A read of any offset but that of STATUS changes the host's variable alone. -/
theorem hostAction_rd_of_ne {offset : Nat} (hd : regAccessDefined offset 4 = true) (h : offset ≠ 0x10) (dst : Nat)
    (s : State) : hostAction (.rd dst offset 4) s = .next (s.setHostVar dst (s.readReg offset)) := by
  rw [hostAction_rd hd, State.observe_of_ne h]

@[simp] theorem State.hostVar_setHostVar (s : State) (x : Nat) (v : Word) : (s.setHostVar x v).hostVar x = v := by
  simp [State.hostVar, Table.find_put]

/-- Settles O15: every offset but that of STATUS is read without an effect, and STATUS publishes. -/
theorem registerReadsReturnTheMap : Obligations.RegisterReadsReturnTheMap := by
  intro s dst
  have plain {offset : Nat} (hd : regAccessDefined offset 4 = true) (h : offset ≠ 0x10) :=
    hostAction_rd_of_ne hd h dst s
  refine ⟨plain (offset := 0x00) (by decide) (by decide), plain (offset := 0x04) (by decide) (by decide),
    plain (offset := 0x08) (by decide) (by decide), plain (offset := 0x0C) (by decide) (by decide), ?_,
    plain (offset := 0x14) (by decide) (by decide), plain (by decide) (by decide), plain (by decide) (by decide),
    s.hostVar_setHostVar dst⟩
  rw [← State.observe_status]
  exact hostAction_rd (by decide) dst s

/-- Settles O16: such an access is not a defined one. -/
theorem undefinedRegisterAccessIsRefused : Obligations.UndefinedRegisterAccessIsRefused := by
  intro s dst offset size v h
  have hd : ¬ regAccessDefined offset size = true := fun hd => h ((regAccessDefined_iff offset size).1 hd)
  exact ⟨if_neg hd, if_neg hd⟩

/-! ### Reserved address bits -/

theorem toNat_maskAddr (p : Params) (v : Word) : (maskAddr p v).toNat = v.toNat % 2 ^ p.addrBits := by
  rw [maskAddr, BitVec.toNat_ofNat, Nat.mod_eq_of_lt (lt_of_le_of_lt (Nat.mod_le _ _) v.isLt)]

theorem getLsbD_maskAddr (p : Params) (v : Word) (k : Nat) :
    (maskAddr p v).getLsbD k = (decide (k < p.addrBits) && v.getLsbD k) := by
  rw [BitVec.getLsbD, toNat_maskAddr, Nat.testBit_mod_two_pow, BitVec.getLsbD]

/-- Settles O14: a write is `State.writeReg`, and the operands take a masked register as it is. -/
theorem registerWritesFollowTheMap : Obligations.RegisterWritesFollowTheMap := by
  intro s v
  have wr {offset : Nat} (hd : regAccessDefined offset 4 = true) (h0 : offset ≠ 0) := hostAction_wr hd h0 v s
  have masked : (maskAddr s.params (maskAddr s.params v)).toNat % 2 ^ s.params.addrBits =
      v.toNat % 2 ^ s.params.addrBits := by
    rw [maskAddr_maskAddr, toNat_maskAddr, Nat.mod_mod]
  exact ⟨wr (offset := 0x04) (by decide) (by decide), wr (offset := 0x08) (by decide) (by decide),
    wr (offset := 0x0C) (by decide) (by decide), getLsbD_maskAddr s.params v, congrArg Nat.cast masked, rfl, masked,
    wr (offset := 0x10) (by decide) (by decide), wr (offset := 0x14) (by decide) (by decide),
    wr (by decide) (by decide), wr (by decide) (by decide)⟩

/-! ### The bits of STATUS and CONFIG -/

theorem getLsbD_eq_of_extract {n k : Nat} {w : BitVec n} {b : Bool} (h : w.extractLsb' k 1 = BitVec.ofBool b) :
    w.getLsbD k = b := by
  simpa using congrArg (BitVec.getLsbD · 0) h

/-- The fields of a word laid out as STATUS is (10_state.md R29). -/
theorem statusLayout_fields (high : BitVec 24) (code : BitVec 4) (gap err done busy : BitVec 1) :
    let w := high ++ code ++ gap ++ err ++ done ++ busy
    w.extractLsb' 0 1 = busy ∧ w.extractLsb' 1 1 = done ∧ w.extractLsb' 2 1 = err ∧ w.extractLsb' 3 1 = gap ∧
      w.extractLsb' 4 4 = code ∧ w.extractLsb' 8 24 = high := by
  simp (disch := decide) only [BitVec.extractLsb'_append_eq_of_le, BitVec.extractLsb'_append_eq_of_add_le,
    BitVec.extractLsb'_eq_self, Nat.reduceSub, and_self]

/-- The fields of a word laid out as CONFIG is (10_state.md R30). -/
theorem configLayout_fields (ver : BitVec 8) (gap₂₂ : BitVec 2) (ab : BitVec 6) (bd : BitVec 4) (gap₉ : BitVec 3)
    (rbits : BitVec 5) (gap₃ nm hw lw : BitVec 1) :
    let w := ver ++ gap₂₂ ++ ab ++ bd ++ gap₉ ++ rbits ++ gap₃ ++ nm ++ hw ++ lw
    w.extractLsb' 0 1 = lw ∧ w.extractLsb' 1 1 = hw ∧ w.extractLsb' 2 1 = nm ∧ w.extractLsb' 3 1 = gap₃ ∧
      w.extractLsb' 4 5 = rbits ∧ w.extractLsb' 9 3 = gap₉ ∧ w.extractLsb' 12 4 = bd ∧ w.extractLsb' 16 6 = ab ∧
      w.extractLsb' 22 2 = gap₂₂ ∧ w.extractLsb' 24 8 = ver := by
  simp (disch := decide) only [BitVec.extractLsb'_append_eq_of_le, BitVec.extractLsb'_append_eq_of_add_le,
    BitVec.extractLsb'_eq_self, Nat.reduceSub, and_self]

/-- Settles O17: the fields are those of the layout. -/
theorem statusWordHasItsFields : Obligations.StatusWordHasItsFields := by
  intro st
  obtain ⟨busy, done, err, gap, code, high⟩ := statusLayout_fields 0#24 st.ecode 0#1 (BitVec.ofBool st.err)
    (BitVec.ofBool st.done) (BitVec.ofBool st.busy)
  exact ⟨getLsbD_eq_of_extract busy, getLsbD_eq_of_extract done, getLsbD_eq_of_extract err,
    getLsbD_eq_of_extract gap, code, high⟩

theorem bitDepth_bits_lt (d : BitDepth) : d.bits < 2 ^ 4 := by cases d <;> decide

theorem radix_addrBits_of_legal {p : Params} (h : p.legal = true) : p.radix ≤ 30 ∧ p.addrBits ≤ 32 := by
  simp only [Params.legal, Bool.and_eq_true, decide_eq_true_eq] at h
  omega

/-- Settles O18: the fields are those of the layout, and the parameters of a legal tuple fit theirs. -/
theorem configReportsTheParameters : Obligations.ConfigReportsTheParameters := by
  refine ⟨fun p hp => ?_, by decide, by decide, fun s v dst =>
    ⟨hostAction_wr (offset := 0x14) (by decide) (by decide) v s,
      hostAction_rd_of_ne (offset := 0x14) (by decide) (by decide) dst s⟩⟩
  obtain ⟨hR, hA⟩ := radix_addrBits_of_legal hp
  obtain ⟨lw, hw, nm, gap₃, rbits, gap₉, bd, ab, gap₂₂, ver⟩ := configLayout_fields 7#8 0#2
    (BitVec.ofNat 6 p.addrBits) (BitVec.ofNat 4 p.bitDepth.bits) 0#3 (BitVec.ofNat 5 p.radix) 0#1
    (BitVec.ofBool (p.narrowMode == .wrap)) (BitVec.ofBool (p.working == .w64)) (BitVec.ofBool (p.native == .l32))
  have field {n k x : Nat} (hx : x < 2 ^ n) (h : (configWord p).extractLsb' k n = BitVec.ofNat n x) :
      ((configWord p).extractLsb' k n).toNat = x := by
    rw [h, BitVec.toNat_ofNat, Nat.mod_eq_of_lt hx]
  exact ⟨getLsbD_eq_of_extract lw, getLsbD_eq_of_extract hw, getLsbD_eq_of_extract nm, getLsbD_eq_of_extract gap₃,
    field (by omega) rbits, field (by decide) gap₉, field (bitDepth_bits_lt _) bd, field (by omega) ab,
    field (by decide) gap₂₂, field (by decide) ver⟩

/-- Settles O47: State.reset is a closed term. -/
theorem resetStateReadsAsTheSpecSays : Obligations.ResetStateReadsAsTheSpecSays := by
  unfold Obligations.ResetStateReadsAsTheSpecSays
  decide

/-! ### The CMD write -/

theorem exec_decode_busy {s : State} (hb : s.seq = .busy) (w : Word) : exec (decode w) s = .next s := by
  unfold decode
  split
  · simp only [exec, execFdct4x4, hb]
  · simp only [exec, execReserved, hb]

theorem exec_decode_accepted {s : State} (hi : s.seq = .idle)
    (hw : ¬ (s.nextOperands.addressOk s.params = true ∧ s.nextOperands.windowsOverlap s.params = true)) :
    exec (decode 0x00000001#32) s = .next s.accept := by
  show execFdct4x4 s = .next s.accept
  simp only [execFdct4x4, hi, Bool.and_eq_true, if_neg hw]

theorem exec_decode_rejected {s : State} (hi : s.seq = .idle) {w : Word} (hw : w ≠ 0x00000001#32) :
    exec (decode w) s = .next (s.raiseError .badCmd) := by
  simp only [decode, if_neg hw, exec, execReserved, hi]

/-- Settles O8: BUSY mirrors the sequencer, on which the command depends. -/
theorem cmdWriteFollowsTheRule : Obligations.CmdWriteFollowsTheRule := by
  intro s mirrors
  have idle (h : s.status.busy = false) : s.seq = .idle := by
    cases hs : s.seq with
    | idle => rfl
    | busy => rw [mirrors.1 hs] at h; cases h
  exact ⟨fun v hb => exec_decode_busy (mirrors.2 hb) v,
    fun hb hw => ⟨s.accept, exec_decode_accepted (idle hb) hw, rfl⟩,
    fun v hb hv => exec_decode_rejected (idle hb) hv,
    fun dst => hostAction_rd_of_ne (offset := 0x00) (by decide) (by decide) dst s⟩

/-! ### A write during BUSY -/

/-- A register write reaches the three operand registers alone. -/
theorem State.writeReg_regs (s : State) (offset : Nat) (v : Word) :
    s.writeReg offset v =
      { s with
        inBase := (s.writeReg offset v).inBase
        inStride := (s.writeReg offset v).inStride
        outBase := (s.writeReg offset v).outBase } := by
  obtain e | e | e | e := writeReg_cases s offset v <;> rw [e]

/-- Settles O19: the completion step does not read the operand registers. -/
theorem writesWhileBusyLeaveTheOperation : Obligations.WritesWhileBusyLeaveTheOperation := by
  intro s offset v ho
  have hd : regAccessDefined offset 4 = true := by obtain rfl | rfl | rfl := ho <;> decide
  refine ⟨s.writeReg offset v, hostAction_wr hd (by omega) v s, s.writeReg_regs offset v, fun hb t ht => ⟨t.work, ?_⟩⟩
  exact (congrArg completeOp (s.writeReg_regs offset v)).trans (completeOp_regs hb ht _ _ _ s.work)

/-! ### An element access outside its space -/

/-- Settles O59: the four accesses make the same check. -/
theorem hostAccessOutsideTheSpacesFaults : Obligations.HostAccessOutsideTheSpacesFaults := by
  intro s dst a h v
  exact ⟨fun ha => ⟨if_neg (Nat.not_lt.2 ha), if_neg (Nat.not_lt.2 ha)⟩,
    fun ha => ⟨if_neg (Nat.not_lt.2 ha), if_neg (Nat.not_lt.2 ha)⟩⟩

end Sys2Proof.Machine
end

section
/-! PROOFS. What a step runs on each turn, and which steps reach STATUS and the latches. -/

namespace Sys2Proof.Machine

open Sys2Proof

/-! ### A step on each turn -/

theorem step_hostTurn {s : State} (h : s.turn.1 = .host) : step s = hostTurn { s with agenda := s.turn.2 } := by
  rw [step_eq, h]; rfl

theorem step_blockTurn {s : State} (h : s.turn.1 = .block) : step s = completeOp { s with agenda := s.turn.2 } := by
  rw [step_eq, h]; rfl

theorem step_hostStmt {s : State} {st : HostStmt} (h : s.turn.1 = .host) (hst : s.nextStmt = some st) :
    step s = hostAction st s.atHostTurn := by
  have hst : s.host.prog[s.host.pc]? = some st := hst
  rw [step_hostTurn h, hostTurn, hst]
  rfl

theorem step_hostDone {s : State} (h : s.turn.1 = .host) (hst : s.nextStmt = none) :
    step s = .next { s with agenda := s.turn.2 } := by
  have hst : s.host.prog[s.host.pc]? = none := hst
  rw [step_hostTurn h, hostTurn, hst]

/-- Settles O5: a CMD write is one of the host's statements. -/
theorem stepRunsTheDecodedCommand : Obligations.StepRunsTheDecodedCommand :=
  fun s h => ⟨fun _ hst => step_hostStmt h hst,
    fun w hst => (step_hostStmt h hst).trans (hostAction_writeReg_cmd w s.atHostTurn), step_hostDone h⟩

/-- Settles O7: on its turn the block runs the completion step, which while idle does nothing. -/
theorem blockStepsOnlyWhilePending : Obligations.BlockStepsOnlyWhilePending :=
  fun _ h => ⟨step_blockTurn h, fun hi => (step_blockTurn h).trans (completeOp_idle hi)⟩

/-! ### STATUS and the latches -/

/-- `t` has the latches of `s`. -/
abbrev State.SameLatches (s t : State) : Prop :=
  t.latInBase = s.latInBase ∧ t.latInStride = s.latInStride ∧ t.latOutBase = s.latOutBase

theorem State.sameLatches_raiseError (s : State) (e : ErrCode) : s.SameLatches (s.raiseError e) :=
  ⟨s.raiseError_latInBase e, s.raiseError_latInStride e, s.raiseError_latOutBase e⟩

theorem State.sameLatches_commit (s : State) : s.SameLatches s.commit :=
  ⟨s.commit_latInBase, s.commit_latInStride, s.commit_latOutBase⟩

/-- A completion keeps its latches (10_state.md R34). -/
theorem State.sameLatches_afterCompletion (s : State) : s.SameLatches s.afterCompletion := by
  cases hok : s.operands.addressOk s.params with
  | false => rw [State.afterCompletion_addr hok]; exact s.sameLatches_raiseError .addr
  | true =>
    cases hf : fdct s.params s.window with
    | none => rw [State.afterCompletion_ovf hok hf]; exact (s.drawn 16).sameLatches_raiseError .ovf
    | some o =>
      rw [State.afterCompletion_commit hok hf]
      exact (({ s with work := { s.work with o := o } } : State).drawn 16).sameLatches_commit

theorem State.writeReg_keeps (s : State) (offset : Nat) (v : Word) :
    (s.writeReg offset v).status = s.status ∧ s.SameLatches (s.writeReg offset v) := by
  rw [State.writeReg_regs]
  exact ⟨rfl, rfl, rfl, rfl⟩

theorem State.observe_keeps (s : State) (offset : Nat) :
    (s.observe offset).status = s.status ∧ s.SameLatches (s.observe offset) := by
  unfold State.observe
  split <;> exact ⟨rfl, rfl, rfl, rfl⟩

theorem State.hostStore_keeps (s : State) (coef : Bool) (a : Nat) (bs : List Byte) :
    (s.hostStore coef a bs).status = s.status ∧ s.SameLatches (s.hostStore coef a bs) := by
  obtain ⟨-, e⟩ | ⟨-, e | e⟩ := hostStore_cases s coef a bs <;> rw [e]
  · exact ⟨by simp, by simp, by simp, by simp⟩
  · exact ⟨by simp, by simp, by simp, by simp⟩
  · exact ⟨by simp, by simp, by simp, by simp⟩

/-- Of the host's statements a CMD write alone reaches STATUS and the latches. -/
theorem hostAction_keeps {st : HostStmt} {s t : State} (h : hostAction st s = .next t) :
    (∃ w, st = .writeReg .cmd w ∧ exec (decode w) s = .next t) ∨ (t.status = s.status ∧ s.SameLatches t) := by
  obtain hcmd | ⟨offset, v, -, -, rfl⟩ | ⟨dst, offset, -, rfl⟩ | ⟨coef, a, bs, rfl⟩ | ⟨dst, v, rfl⟩ | ⟨n, rfl⟩ :=
    hostAction_cases h
  · exact .inl hcmd
  · exact .inr (s.writeReg_keeps offset v)
  · exact .inr (s.observe_keeps offset)
  · exact .inr (s.hostStore_keeps coef a bs)
  · exact .inr ⟨rfl, rfl, rfl, rfl⟩
  · exact .inr ⟨rfl, rfl, rfl, rfl⟩

/-- What a step can do to STATUS and the latches: the host's CMD write while idle, where 0x00000001 alone reaches the
latches, the completion of a running operation, reset, or nothing. -/
theorem step_status_latches {s t : State} (h : step s = .next t) :
    (s.turn.1 = .host ∧ s.seq = .idle ∧
      ∃ w, s.nextStmt = some (.writeReg .cmd w) ∧ (w = 0x00000001#32 ∨ s.SameLatches t)) ∨
    (s.turn.1 = .block ∧ s.seq = .busy ∧ s.SameLatches t) ∨
    s.turn.1 = .reset ∨ (t.status = s.status ∧ s.SameLatches t) := by
  cases hturn : s.turn.1 with
  | host =>
    cases hst : s.nextStmt with
    | none =>
      obtain rfl := Host.Outcome.next.inj ((step_hostDone hturn hst).symm.trans h)
      exact .inr (.inr (.inr ⟨rfl, rfl, rfl, rfl⟩))
    | some st =>
      obtain ⟨w, rfl, hcmd⟩ | keeps := hostAction_keeps ((step_hostStmt hturn hst).symm.trans h)
      · obtain ⟨-, rfl⟩ | ⟨hi, hw, -, -⟩ | ⟨hi, -, rfl⟩ := exec_decode_cases hcmd
        · exact .inr (.inr (.inr ⟨rfl, rfl, rfl, rfl⟩))
        · exact .inl ⟨rfl, hi, w, rfl, .inl hw⟩
        · exact .inl ⟨rfl, hi, w, rfl, .inr (s.atHostTurn.sameLatches_raiseError .badCmd)⟩
      · exact .inr (.inr (.inr keeps))
  | block =>
    obtain ⟨-, rfl⟩ | ⟨hb, rfl⟩ := completeOp_next ((step_blockTurn hturn).symm.trans h)
    · exact .inr (.inr (.inr ⟨rfl, rfl, rfl, rfl⟩))
    · exact .inr (.inl ⟨rfl, hb, State.sameLatches_afterCompletion { s with agenda := s.turn.2 }⟩)
  | reset => exact .inr (.inr (.inl rfl))

/-- Settles O51: any other step leaves STATUS. -/
theorem onlyThreeEventsWriteStatus : Obligations.OnlyThreeEventsWriteStatus := by
  intro s t h changed
  obtain ⟨hh, hi, w, hst, -⟩ | ⟨hb, hs, -⟩ | hr | ⟨same, -⟩ := step_status_latches h
  · exact .inl ⟨hh, hi, w, hst⟩
  · exact .inr (.inl ⟨hb, hs⟩)
  · exact .inr (.inr hr)
  · exact absurd same changed

/-- Settles O52: a rejected command and a completion leave the latches. -/
theorem latchesChangeOnlyAtAcceptance : Obligations.LatchesChangeOnlyAtAcceptance := by
  intro s t h changed
  obtain ⟨hh, hi, w, hst, rfl | same⟩ | ⟨-, -, same⟩ | hr | ⟨-, same⟩ := step_status_latches h
  · exact .inl ⟨hh, hi, hst⟩
  · exact absurd same changed
  · exact absurd same changed
  · exact .inr hr
  · exact absurd same changed

end Sys2Proof.Machine
end

section
/-! PROOFS. The element spaces (20_memory.md): overlapping windows (R64), the block and the sample space (R54), the
host's accesses to a coefficient, and the operation with races (R58). -/

namespace Sys2Proof.Machine

open Sys2Proof

/-! ### The overlap of two windows -/

/-- Two byte ranges that are not empty meet where they share a byte: the higher of their first bytes. -/
theorem rangesMeet_iff {a n b m : Nat} (hn : 0 < n) (hm : 0 < m) :
    rangesMeet a n b m = true ↔ ∃ x, (a ≤ x ∧ x < a + n) ∧ (b ≤ x ∧ x < b + m) := by
  simp only [rangesMeet, Bool.and_eq_true, decide_eq_true_eq]
  constructor
  · exact fun _ => ⟨max a b, by omega⟩
  · rintro ⟨x, ha, hb⟩
    omega

theorem Operands.windowsOverlap_separate {p : Params} (hp : p.platform = .separate) (o : Operands) :
    o.windowsOverlap p = false := by
  simp [Operands.windowsOverlap, Params.isShared, hp]

/-- On one memory the windows overlap exactly if a sample shares a byte with the coefficients. -/
theorem Operands.windowsOverlap_shared {p : Params} {sb cb : Nat} (hp : p.platform = .shared sb cb) (o : Operands) :
    o.windowsOverlap p = true ↔ ∃ r c, rangesMeet (sb + 2 * (o.sampleAddr r c).toNat) 2
      (cb + p.native.bytes * o.outBase) (16 * p.native.bytes) = true := by
  simp only [Operands.windowsOverlap, Params.isShared, hp, Bool.true_and, Blk.any_ofFn, sampleByteAddr, coefByteAddr]

/-- Settles O12: the command makes this very check, and ranges overlap where they share a byte. -/
theorem overlappingLaunchIsRefused : Obligations.OverlappingLaunchIsRefused := by
  refine ⟨fun s hi hok ho => ?_, fun p o hp => Operands.windowsOverlap_separate hp o, fun p o sb cb hp => ?_⟩
  · show execFdct4x4 s = .refused .windowsOverlap
    simp only [execFdct4x4, hi, hok, ho, Bool.and_self, if_true]
  · have hw : 0 < 16 * p.native.bytes := Nat.mul_pos (by decide) (NativeWidth.bytes_pos p.native)
    simp only [Operands.windowsOverlap_shared hp, rangesMeet_iff Nat.two_pos hw]

/-! ### The block leaves the sample space -/

/-- What an instruction that goes on can do: nothing, accept, raise an error, or compute in the working storage. -/
theorem exec_cases {i : Instr} {s t : State} (h : exec i s = .next t) :
    t = s ∨ t = s.accept ∨ (∃ e, t = s.raiseError e) ∨ ∃ w n, t = ({ s with work := w } : State).drawn n := by
  have computes {w : Work} (h : Host.Outcome.next (φ := Fault) (ρ := Refusal) { s with work := w } = .next t) :
      ∃ w n, t = ({ s with work := w } : State).drawn n := ⟨w, 0, (Host.Outcome.next.inj h).symm⟩
  have raises {e : ErrCode} (h : Host.Outcome.next (φ := Fault) (ρ := Refusal) (s.raiseError e) = .next t) :
      ∃ e, t = s.raiseError e := ⟨e, (Host.Outcome.next.inj h).symm⟩
  cases i with
  | fdct4x4 =>
    obtain ⟨-, rfl⟩ | ⟨-, -, rfl, -⟩ | ⟨-, hw, -⟩ := exec_decode_cases (w := 0x00000001#32) h
    · exact .inl rfl
    · exact .inr (.inl rfl)
    · exact absurd rfl hw
  | reserved w =>
    change execReserved w s = .next t at h
    unfold execReserved at h
    split at h
    · exact .inl (Host.Outcome.next.inj h).symm
    · exact .inr (.inr (.inl (raises h)))
  | loadScale =>
    replace h := inOperation_next h
    split at h
    · split at h
      · exact .inr (.inr (.inr ⟨_, 16, (Host.Outcome.next.inj h).symm⟩))
      · exact .inr (.inr (.inl (raises h)))
    · exact .inr (.inr (.inl (raises h)))
  | dcNudge | transpose | finalNorm => exact .inr (.inr (.inr (computes (inOperation_next h))))
  | bfly4 | roundShift | narrow =>
    replace h := inOperation_next h
    split at h
    · exact .inr (.inr (.inr (computes h)))
    · exact .inr (.inr (.inl (raises h)))

section
variable {s : State} (hp : s.params.platform = .separate)
include hp

theorem State.raiseError_smem_separate (e : ErrCode) : (s.raiseError e).smem = s.smem := by
  cases e with
  | badCmd => rfl
  | addr => rfl
  | ovf => rw [State.raiseError_ovf, State.finish_smem, State.freeWindow_smem_separate s hp]

theorem State.commit_smem_separate : s.commit.smem = s.smem := by
  rw [State.commit_smem, State.writeCoefs_smem_separate s hp]

theorem State.afterCompletion_smem_separate : s.afterCompletion.smem = s.smem := by
  cases hok : s.operands.addressOk s.params with
  | false => rw [State.afterCompletion_addr hok, State.raiseError_smem_separate hp]
  | true =>
    cases hf : fdct s.params s.window with
    | none => rw [State.afterCompletion_ovf hok hf]; exact State.raiseError_smem_separate (s := s.drawn 16) hp .ovf
    | some o =>
      rw [State.afterCompletion_commit hok hf]
      exact State.commit_smem_separate (s := ({ s with work := { s.work with o := o } } : State).drawn 16) hp

end

/-- Settles O41: of all the block does only the commit and E_OVF write memory, and both write the coefficient space. -/
theorem blockNeverWritesSamples : Obligations.BlockNeverWritesSamples := by
  refine fun s t hp => ⟨fun i h => ?_, fun h => ?_⟩
  · obtain rfl | rfl | ⟨e, rfl⟩ | ⟨w, n, rfl⟩ := exec_cases h
    · rfl
    · rfl
    · exact State.raiseError_smem_separate hp e
    · rfl
  · obtain ⟨-, rfl⟩ | ⟨-, rfl⟩ := completeOp_next h
    · rfl
    · exact State.afterCompletion_smem_separate hp

/-! ### A host read of a coefficient -/

theorem hostAction_mrC {s : State} {a : Nat} (ha : a < s.params.coefWords) (dst : Nat) :
    hostAction (.mrC dst a) s = .next ((s.setHostVar dst (BitVec.ofInt 32
      (s.hostLoad true (coefByteAddr s.params a) s.params.native.bytes s.params.nativeBits))).drawn 1) :=
  if_pos ha

theorem State.fits_hostLoad (s : State) (coef : Bool) (a n : Nat) {bits : Nat} (hb : 0 < bits) :
    fits bits (s.hostLoad coef a n bits) := by
  unfold State.hostLoad
  split
  · exact fits_wrap hb _
  · exact fits_sext hb _

/-- Outside the windows of a running operation and of those not yet seen DONE a coefficient reads as it is. -/
theorem State.hostLoad_coef {s : State} {a : Nat}
    (hr : s.meetsRunning true (coefByteAddr s.params a) s.params.native.bytes = false)
    (hu : s.meetsUnseen true (coefByteAddr s.params a) s.params.native.bytes = false) :
    s.hostLoad true (coefByteAddr s.params a) s.params.native.bytes s.params.nativeBits = s.coef a := by
  simp [State.hostLoad, hr, hu, State.coef]

/-- Settles O57: the value read is `State.hostLoad`. -/
theorem coefficientReadsAreTrueAfterDone : Obligations.CoefficientReadsAreTrueAfterDone :=
  fun s dst _ ha => ⟨_, hostAction_mrC ha dst, s.fits_hostLoad true _ _ s.params.nativeBits_pos, State.hostLoad_coef⟩

theorem State.meetsRunning_idle {s : State} (hi : s.seq = .idle) (coef : Bool) (a n : Nat) :
    s.meetsRunning coef a n = false := by
  simp [State.meetsRunning, hi]

theorem State.meetsUnseen_nil {s : State} (hu : s.unseen = []) (coef : Bool) (a n : Nat) :
    s.meetsUnseen coef a n = false := by
  simp [State.meetsUnseen, hu]

/-- Settles O58: the STATUS read empties the record of ended operations, and no operation runs. -/
theorem doneReadPublishesTheResults : Obligations.DoneReadPublishesTheResults := by
  intro s hi hd dst
  let t : State := { s with unseen := [] }.setHostVar dst s.status.word
  have ht : hostAction (.readReg dst .status) s = .next t := by
    refine (hostAction_rd (offset := 0x10) (by decide) dst s).trans ?_
    rw [State.observe_status, if_pos hd]
    rfl
  refine ⟨t, ht, State.hostVar_setHostVar _ dst _, fun e a ha => ?_⟩
  have htrue := State.hostLoad_coef (a := a) (State.meetsRunning_idle (s := t) hi true _ _)
    (State.meetsUnseen_nil (s := t) rfl true _ _)
  rw [hostAction_mrC (s := t) ha, htrue]
  rfl

/-! ### A host write of a coefficient -/

/-- A host write of coefficient `a` that lands: the write, recorded while an operation runs. -/
def State.landCoef (s : State) (a : Nat) (v : Int) : State :=
  s.land true (coefByteAddr s.params a) (coefBytes s.params v)

/-- A host write of coefficient `a` (`hostAction_mwC`). -/
def State.storeCoef (s : State) (a : Nat) (v : Int) : State :=
  s.hostStore true (coefByteAddr s.params a) (coefBytes s.params v)

theorem hostAction_mwC {s : State} {a : Nat} (ha : a < s.params.coefWords) (v : Word) :
    hostAction (.mwC a v) s = .next (s.storeCoef a v.toInt) :=
  if_pos ha

/-- What a host write of a coefficient can do: it lands or, in a window not yet seen DONE, the operations' values may
come back over it. -/
theorem State.storeCoef_cases (s : State) (a : Nat) (v : Int) :
    (∃ n, s.storeCoef a v = (s.landCoef a v).drawn n) ∨
    (s.meetsUnseen true (coefByteAddr s.params a) s.params.native.bytes = true ∧
      s.storeCoef a v = (((s.landCoef a v).noteSamples true).restore
        (s.unseenElements (coefByteAddr s.params a) s.params.native.bytes)).drawn 1) := by
  have h := hostStore_cases s true (coefByteAddr s.params a) (coefBytes s.params v)
  rw [length_coefBytes] at h
  obtain ⟨-, e⟩ | ⟨hm, e | e⟩ := h
  · exact .inl ⟨0, e⟩
  · exact .inl ⟨1, e⟩
  · exact .inr ⟨hm, e⟩

@[simp] theorem State.noteSamples_coef (s : State) (coef : Bool) (a : Nat) : (s.noteSamples coef).coef a = s.coef a :=
  State.coef_eq_of_mem (by simp) (by simp) (by simp) a

@[simp] theorem State.noteRaced_coef (s : State) (coef : Bool) (x : Nat) (bs : List Byte) (a : Nat) :
    (s.noteRaced coef x bs).coef a = s.coef a :=
  State.coef_eq_of_mem (by simp) (by simp) (by simp) a

/-- But for the record of races a landed write is a coefficient write. -/
theorem State.landCoef_eq (s : State) (a : Nat) (v : Int) :
    s.landCoef a v =
      ((s.noteSamples true).noteRaced true (coefByteAddr s.params a) (coefBytes s.params v)).writeCoef a v := by
  simp [State.landCoef, State.land, State.putBytes, State.writeCoef]

@[simp] theorem State.landCoef_params (s : State) (a : Nat) (v : Int) : (s.landCoef a v).params = s.params :=
  State.land_params s _ _ _

theorem State.coef_landCoef_same (s : State) (a : Nat) (v : Int) :
    (s.landCoef a v).coef a = wrap s.params.nativeBits v := by
  simp [State.landCoef_eq, State.coef_writeCoef_wrap]

theorem State.coef_landCoef_other (s : State) {a b : Nat} (h : b ≠ a) (v : Int) :
    (s.landCoef a v).coef b = s.coef b := by
  simp [State.landCoef_eq, State.coef_writeCoef_other _ a b v h]

theorem State.landCoef_smem_separate {s : State} (hp : s.params.platform = .separate) (a : Nat) (v : Int) :
    (s.landCoef a v).smem = s.smem := by
  rw [State.landCoef_eq]
  exact (State.writeCoefs_smem_separate _ (by simpa using hp) a [v]).trans (by simp)

theorem State.landCoef_raced {s : State} (hb : s.seq = .busy) (a : Nat) (v : Int) :
    (s.landCoef a v).raced =
      (byteRange (coefByteAddr s.params a) s.params.native.bytes).zip (coefBytes s.params v) ++ s.raced := by
  have h := State.raced_land hb (coefByteAddr s.params a) (coefBytes s.params v)
  rwa [length_coefBytes] at h

/-- An operation's value for an element stands in the record of that operation, in the element's place. -/
theorem State.operationValue_eq_some {s : State} {e : Nat} {x : Int} (h : s.operationValue e = some x) :
    ∃ w ∈ s.unseen, w.base ≤ e ∧ w.values[e - w.base]? = some x := by
  obtain ⟨w, hw, hx⟩ := List.exists_of_findSome?_eq_some h
  split at hx
  · exact ⟨w, hw, ‹_›, hx⟩
  · cases hx

/-- The element written holds the value written or the one an operation on record gave it. -/
theorem State.coef_storeCoef_same (s : State) (a : Nat) (v : Int) :
    (s.storeCoef a v).coef a = wrap s.params.nativeBits v ∨
      ∃ x, s.operationValue a = some x ∧ (s.storeCoef a v).coef a = wrap s.params.nativeBits x := by
  obtain ⟨n, e⟩ | ⟨-, e⟩ := s.storeCoef_cases a v
  · exact .inl (by rw [e, State.drawn_coef, State.coef_landCoef_same])
  · rw [e, State.drawn_coef]
    obtain same | ⟨x, hx, h⟩ := State.coef_restore_same ((s.landCoef a v).noteSamples true) a
      (s.unseenElements (coefByteAddr s.params a) s.params.native.bytes)
    · exact .inl (by rw [same, State.noteSamples_coef, State.coef_landCoef_same])
    · rw [State.operationValue_congr (s := s) (by simp [State.landCoef])] at hx
      exact .inr ⟨x, hx, by simpa using h⟩

/-- Outside the windows not yet seen DONE the write lands. -/
theorem State.coef_storeCoef_lands {s : State} {a : Nat}
    (hu : s.meetsUnseen true (coefByteAddr s.params a) s.params.native.bytes = false) (v : Int) :
    (s.storeCoef a v).coef a = wrap s.params.nativeBits v := by
  obtain ⟨n, e⟩ | ⟨hm, -⟩ := s.storeCoef_cases a v
  · rw [e, State.drawn_coef, State.coef_landCoef_same]
  · rw [hu] at hm; cases hm

theorem State.coef_storeCoef_other (s : State) {a b : Nat} (h : b ≠ a) (v : Int) :
    (s.storeCoef a v).coef b = s.coef b := by
  obtain ⟨n, e⟩ | ⟨-, e⟩ := s.storeCoef_cases a v
  · rw [e, State.drawn_coef, State.coef_landCoef_other s h]
  · rw [e, State.drawn_coef, State.coef_restore_other _ b _ fun hb => h (s.mem_unseenElements hb),
      State.noteSamples_coef, State.coef_landCoef_other s h]

@[simp] theorem State.storeCoef_params (s : State) (a : Nat) (v : Int) : (s.storeCoef a v).params = s.params := by
  obtain ⟨n, e⟩ | ⟨-, e⟩ := s.storeCoef_cases a v <;> simp [e]

/-- A coefficient write leaves STATUS, the operand registers and the working storage. -/
theorem State.storeCoef_frame (s : State) (a : Nat) (v : Int) :
    (s.storeCoef a v).status = s.status ∧ (s.storeCoef a v).inBase = s.inBase ∧
      (s.storeCoef a v).inStride = s.inStride ∧ (s.storeCoef a v).outBase = s.outBase ∧
      (s.storeCoef a v).work = s.work := by
  obtain ⟨n, e⟩ | ⟨-, e⟩ := s.storeCoef_cases a v <;> simp [e, State.landCoef]

theorem State.storeCoef_smem_separate {s : State} (hp : s.params.platform = .separate) (a : Nat) (v : Int) :
    (s.storeCoef a v).smem = s.smem := by
  obtain ⟨n, e⟩ | ⟨-, e⟩ := s.storeCoef_cases a v
  · rw [e, State.drawn_smem, State.landCoef_smem_separate hp]
  · rw [e, State.drawn_smem, State.restore_smem_separate _ (by simpa using hp), State.noteSamples_smem,
      State.landCoef_smem_separate hp]

/-- While an operation runs the bytes written are the latest on record, also where an ended operation's value comes
back. -/
theorem State.storeCoef_raced {s : State} (hb : s.seq = .busy) (a : Nat) (v : Int) :
    (s.storeCoef a v).raced =
      (byteRange (coefByteAddr s.params a) s.params.native.bytes).zip (coefBytes s.params v) ++ s.raced := by
  obtain ⟨n, e⟩ | ⟨-, e⟩ := s.storeCoef_cases a v <;> simp [e, State.landCoef_raced hb]

/-- So the element is raced, with the value written as its writer's (20_memory.md R58 item 5). -/
theorem State.writerCoef_storeCoef {s : State} (hb : s.seq = .busy) (a : Nat) (v : Int) :
    (s.storeCoef a v).coefRaced a = true ∧ (s.storeCoef a v).writerCoef a = wrap s.params.nativeBits v := by
  have h := State.writerCoef_of_raced (s := s.storeCoef a v) a v s.raced
  rw [State.storeCoef_params] at h
  exact h (State.storeCoef_raced hb a v)

/-- Settles O56: the write is `State.storeCoef`, and what it leaves is said clause by clause. -/
theorem coefficientWriteLandsOrNot : Obligations.CoefficientWriteLandsOrNot := by
  intro s a v ha
  obtain ⟨status, inBase, inStride, outBase, work⟩ := s.storeCoef_frame a v.toInt
  refine ⟨_, hostAction_mwC ha v, ?_, fun hu => State.coef_storeCoef_lands hu _,
    fun b hb => s.coef_storeCoef_other hb _, fun hb => State.writerCoef_storeCoef hb a _,
    status, inBase, inStride, outBase, work, fun hp => State.storeCoef_smem_separate hp a _⟩
  obtain h | ⟨x, hx, h⟩ := s.coef_storeCoef_same a v.toInt
  · exact .inl h
  · obtain ⟨w, hw, hbase, hv⟩ := State.operationValue_eq_some hx
    exact .inr ⟨w, hw, x, hbase, hv, h⟩

/-! ### The operation with races -/

theorem Blk.at_ofFn {α : Type} (f : Fin 4 → Fin 4 → α) (r c : Fin 4) : (Blk.ofFn f).at r c = f r c := by
  fin_cases r <;> fin_cases c <;> rfl

/-- A sample the block reads is one the element had since acceptance (70_reset_and_hazards.md R404). -/
theorem State.blockSample_mem (s : State) (k a : Nat) :
    ∃ m ∈ s.smem :: s.hist, s.blockSample k a = sampleIn s.params m a := by
  unfold State.blockSample
  split
  · exact ⟨s.smem, by simp, rfl⟩
  · rename_i m rest hh
    have hlt : freeChoice (s.draws + k) (rest.length + 2) < (s.smem :: m :: rest).length :=
      Nat.mod_lt _ (Nat.succ_pos _)
    refine ⟨_, ?_, rfl⟩
    rw [hh, List.getD_eq_getElem _ _ hlt]
    exact List.getElem_mem hlt

/-- A commit of values of L bits leaves values of L bits. -/
theorem State.committed_fits {s : State} (h : ∀ v ∈ Blk.flat s.work.o, fits s.params.nativeBits v) :
    ∀ v ∈ s.committed, fits s.params.nativeBits v := by
  intro v hv
  obtain ⟨i, hi, rfl⟩ := List.mem_mapIdx.1 hv
  obtain e | ⟨-, e⟩ := s.commitValue_cases i (Blk.flat s.work.o)[i] <;> rw [e]
  · exact h _ (List.getElem_mem hi)
  · exact s.fits_writerCoef _

/-- The commit leaves in each element of the window the operation's value or, if it was raced, its writer's. -/
theorem State.coef_commit_cases {s : State} (h : ∀ v ∈ Blk.flat s.work.o, fits s.params.nativeBits v) (u v : Fin 4) :
    s.commit.coef (s.operands.outBase + (4 * u.val + v.val)) = s.work.o.at u v ∨
      (s.coefRaced (s.operands.outBase + (4 * u.val + v.val)) = true ∧
        s.commit.coef (s.operands.outBase + (4 * u.val + v.val)) =
          s.writerCoef (s.operands.outBase + (4 * u.val + v.val))) := by
  have hi : 4 * u.val + v.val < s.committed.length := by rw [State.length_committed]; omega
  rw [State.commit_coef, State.coef_writeCoefs_inside s _ _ _ hi (State.committed_fits h), State.committed_getElem]
  exact s.commitValue_cases _ _

/-- Settles O38: the samples are read out of the record, and the operation ends in the commit of their FDCT. -/
theorem racedOperationMixesOldAndNew : Obligations.RacedOperationMixesOldAndNew := by
  refine fun s hb hok => ⟨fun r c => ?_, fun o ho => ?_⟩
  · rw [State.window, Blk.at_ofFn]
    exact s.blockSample_mem _ _
  · let u : State := ({ s with work := { s.work with o := o } } : State).drawn 16
    refine ⟨u.commit, ?_, ?_, State.coef_commit_cases (s := u) (fdct_record ho).2⟩
    · rw [completeOp_eq hb, State.afterCompletion_commit hok ho]
    · rw [State.commit_status]
      decide

end Sys2Proof.Machine
end

section
/-! PROOFS. The command word and its decoder, the word placed before a step, micro-operations outside an operation, and
the host's branches. -/

namespace Sys2Proof.Machine

open Sys2Proof

/-! ### Command words -/

theorem decode_of_ne_one {w : Word} (h : w ≠ 0x00000001#32) : decode w = .reserved w := if_neg h

theorem decode_eq_fdct4x4_iff (w : Word) : decode w = .fdct4x4 ↔ w = 0x00000001#32 := by
  constructor
  · intro h
    by_contra hw
    cases (decode_of_ne_one hw).symm.trans h
  · rintro rfl
    rfl

/-- Settles O1: the decoder is one comparison of the whole word. -/
theorem decoderReadsFdctFromWordOneOnly : Obligations.DecoderReadsFdctFromWordOneOnly := decode_eq_fdct4x4_iff

/-- RSV is bits 31:8 of the command word (30_encoding.md R80). -/
theorem commandWord_rsv (rsv : BitVec 24) (opc : BitVec 8) : (commandWord rsv opc).extractLsb' 8 24 = rsv :=
  BitVec.extractLsb'_append_eq_left

/-- OPC is bits 7:0 of the command word (30_encoding.md R80). -/
theorem commandWord_opc (rsv : BitVec 24) (opc : BitVec 8) : (commandWord rsv opc).extractLsb' 0 8 = opc :=
  BitVec.extractLsb'_append_eq_right

/-- Settles O2: the fields of 0x00000001 are RSV 0 and OPC 0x01. -/
theorem otherCommandWordsAreReserved : Obligations.OtherCommandWordsAreReserved := by
  intro rsv opc h
  refine decode_of_ne_one fun hw => h ⟨?_, ?_⟩
  · rw [← commandWord_rsv rsv opc, hw]; decide
  · rw [← commandWord_opc rsv opc, hw]; decide

/-- Settles O3: closed words, each of which the decoder evaluates. -/
theorem documentedWordsDecode : Obligations.DocumentedWordsDecode := by
  unfold Obligations.DocumentedWordsDecode
  decide

/-! ### Encoding and decoding -/

theorem decode_of_encode {i : Instr} {w : Word} (hi : i.wellFormed = true) (hw : encode i = some w) : decode w = i := by
  cases i with
  | fdct4x4 => cases hw; rfl
  | reserved v => cases hw; exact decode_of_ne_one (by simpa [Instr.wellFormed] using hi)
  | loadScale | dcNudge | bfly4 | roundShift | narrow | transpose | finalNorm => cases hw

theorem encode_decode (w : Word) : encode (decode w) = some w := by
  by_cases h : w = 0x00000001#32
  · rw [h]; rfl
  · rw [decode_of_ne_one h]; rfl

theorem wellFormed_decode (w : Word) : (decode w).wellFormed = true := by
  by_cases h : w = 0x00000001#32
  · rw [h]; rfl
  · rw [decode_of_ne_one h]; simpa [Instr.wellFormed] using h

theorem isSome_encode (i : Instr) : (encode i).isSome = i.isCommand := by
  cases i with
  | fdct4x4 => exact Laws.EncodedExactlyIfCommand.fdct4x4
  | loadScale => exact Laws.EncodedExactlyIfCommand.loadScale
  | dcNudge => exact Laws.EncodedExactlyIfCommand.dcNudge
  | bfly4 lane => exact Laws.EncodedExactlyIfCommand.bfly4 lane
  | roundShift k => exact Laws.EncodedExactlyIfCommand.roundShift k
  | narrow lane k => exact Laws.EncodedExactlyIfCommand.narrow lane k
  | transpose => exact Laws.EncodedExactlyIfCommand.transpose
  | finalNorm => exact Laws.EncodedExactlyIfCommand.finalNorm
  | reserved w => exact Laws.EncodedExactlyIfCommand.reserved w

/-- Settles O4: the round trip from each side, and the constructors that have a word. -/
theorem commandsDecodeBackFromTheirWords : Obligations.CommandsDecodeBackFromTheirWords :=
  ⟨fun _ _ => decode_of_encode, fun w => ⟨encode_decode w, wellFormed_decode w⟩, isSome_encode⟩

/-! ### The placed word -/

/-- The placed statement stands where the host goes on, also if its place was past the program's end (log 6). -/
theorem HostAgent.withNext_next (h : HostAgent) (st : HostStmt) :
    (h.withNext st).prog[(h.withNext st).pc]? = some st := by
  simp [HostAgent.withNext]

theorem State.withFetchWord_nextStmt (s : State) (nbits w : Nat) :
    (s.withFetchWord nbits w).nextStmt = some (.writeReg .cmd (BitVec.ofNat 32 (w % 2 ^ nbits))) :=
  s.host.withNext_next _

/-- Settles O6: the placed word is the host's next statement, on the host's turn. -/
theorem placedWordIsRunNext : Obligations.PlacedWordIsRunNext := by
  intro s nbits w
  let placed := s.withFetchWord nbits w
  refine ⟨placed.atHostTurn.host, ?_, rfl, rfl⟩
  exact (step_hostStmt (s := placed) rfl (s.withFetchWord_nextStmt nbits w)).trans
    (hostAction_writeReg_cmd _ placed.atHostTurn)

/-! ### Micro-operations outside an operation -/

/-- Settles O32: each micro-operation begins with the check that an operation runs. -/
theorem microOperationsNeedAnOperation : Obligations.MicroOperationsNeedAnOperation := by
  intro i s hc hi
  cases i with
  | fdct4x4 | reserved => cases hc
  | loadScale | dcNudge | bfly4 | roundShift | narrow | transpose | finalNorm => exact inOperation_idle _ hi

/-! ### Labels and branches -/

theorem labelPlace_of_first {l n : Nat} {prog : List HostStmt} (hn : prog[n]? = some (.label l))
    (first : ∀ j < n, prog[j]? ≠ some (.label l)) : labelPlace l prog = some n := by
  induction prog generalizing n with
  | nil => simp at hn
  | cons st rest ih =>
    cases n with
    | zero => exact if_pos (Option.some.inj hn)
    | succ n =>
      have hst : st ≠ .label l := fun h => first 0 n.succ_pos (congrArg some h)
      have hrest : labelPlace l rest = some n := ih hn fun j hj => first (j + 1) (Nat.succ_lt_succ hj)
      rw [labelPlace, if_neg hst, hrest]
      rfl

/-- A branch to a label the program has: to its place if taken, and else past the branch. -/
theorem hostBranch_of_labelPlace {s : State} {l n : Nat} (hl : labelPlace l s.host.prog = some n) (taken : Bool) :
    hostBranch s taken l = .next (if taken then { s with host := { s.host with pc := n } } else s) := by
  cases taken with
  | false => rfl
  | true => simp only [hostBranch, hl, if_true]

/-- Settles O60: both branches go to the label's first place, and compare the masked variable with 0. -/
theorem hostBranchesFollowTheMask : Obligations.HostBranchesFollowTheMask := by
  intro s x l n mask hn first
  have branch := hostBranch_of_labelPlace (labelPlace_of_first hn first)
  refine ⟨rfl, (branch (s.hostVar x &&& mask != 0#32)).trans ?_, (branch (s.hostVar x &&& mask == 0#32)).trans ?_⟩
  · simp only [bne_iff_ne, ne_eq, ite_not]
  · simp only [beq_iff_eq]

end Sys2Proof.Machine
end

section
/-! PROOFS. The integer arithmetic's statements (40_arithmetic.md): the right shift (R103), NARROW (R102), what BIT_DEPTH
does not do (R109), and the ranges (R108). -/

namespace Sys2Proof.Machine

open Sys2Proof

/-! ### The right shift -/

/-- Settles O20: the two halves of the division theorem for a positive divisor. -/
theorem rightShiftIsTheFloor : Obligations.RightShiftIsTheFloor := by
  intro v n
  have hp : (0 : Int) < 2 ^ n := by positivity
  rw [asr, pow2_eq]
  exact ⟨Int.ediv_mul_le v hp.ne', Int.lt_ediv_add_one_mul_self v hp⟩

/-! ### NARROW -/

theorem narrow_fault {p : Params} {v : Int} (hv : ¬ fits p.nativeBits v) (hm : p.narrowMode = .fault) :
    narrow p v = none := by
  rw [narrow, if_neg hv, hm]

theorem narrow_wrap {p : Params} {v : Int} (hv : ¬ fits p.nativeBits v) (hm : p.narrowMode = .wrap) :
    narrow p v = some (wrap p.nativeBits v) := by
  rw [narrow, if_neg hv, hm]

theorem exec_narrow_stores {s : State} {k : Fin 4} {x : Int} (hb : s.seq = .busy) (lane : Lane)
    (hx : narrow s.params (s.work.bf.y.get k) = some x) :
    exec (.narrow lane k) s = .next { s with work := s.work.storeLane lane k x } := by
  rw [exec, execNarrow, inOperation_busy _ hb, hx]

theorem exec_narrow_raises {s : State} {k : Fin 4} (hb : s.seq = .busy) (lane : Lane)
    (hx : narrow s.params (s.work.bf.y.get k) = none) :
    exec (.narrow lane k) s = .next (s.raiseError .ovf) := by
  rw [exec, execNarrow, inOperation_busy _ hb, hx]

/-- Settles O29: `narrow` has a value in two of the three cases, and the lane says where it is stored. -/
theorem narrowStoresOrWrapsOrRaises : Obligations.NarrowStoresOrWrapsOrRaises := by
  intro s lane k hb
  refine ⟨fun hv => ?_, fun hv hm => exec_narrow_raises hb lane (narrow_fault hv hm), fun hv hm => ?_⟩
  · rw [exec_narrow_stores hb lane (narrow_of_fits hv)]
    cases lane <;> rfl
  · rw [exec_narrow_stores hb lane (narrow_wrap hv hm)]
    cases lane <;> rfl

/-! ### Entries -/

theorem Vec4.get_map {α β : Type} (f : α → β) (v : Vec4 α) (k : Fin 4) : (Vec4.map f v).get k = f (v.get k) := by
  fin_cases k <;> rfl

theorem Blk.at_map {α β : Type} (f : α → β) (m : Blk α) (r c : Fin 4) : (Blk.map f m).at r c = f (m.at r c) :=
  (congrArg (Vec4.get · c) (Vec4.get_map (Vec4.map f) m r)).trans (Vec4.get_map f (m.get r) c)

/-- The converse of `Vec4.mapO_get`. -/
theorem Vec4.mapO_eq_some {α β : Type} {f : α → Option β} {v : Vec4 α} {w : Vec4 β}
    (h : ∀ k : Fin 4, f (v.get k) = some (w.get k)) : Vec4.mapO f v = some w := by
  have h0 : f v.v0 = some w.v0 := h 0
  have h1 : f v.v1 = some w.v1 := h 1
  have h2 : f v.v2 = some w.v2 := h 2
  have h3 : f v.v3 = some w.v3 := h 3
  rw [Vec4.mapO, h0, h1, h2, h3]

/-! ### BIT_DEPTH -/

/-- Settles O23: every check and every stage reads parameters other than BIT_DEPTH, so both sides compute alike. -/
theorem bitDepthIsNotChecked : Obligations.BitDepthIsNotChecked := fun _ _ _ => rfl

/-! ### Ranges of the stages (40_arithmetic.md R108) -/

/-- Every entry has magnitude at most `b`. -/
abbrev Vec4.Within (b : Int) (v : Vec4 Int) : Prop := ∀ k : Fin 4, -b ≤ v.get k ∧ v.get k ≤ b

/-- Every entry of the block has magnitude at most `b`. -/
abbrev Blk.Within (b : Int) (m : Blk Int) : Prop := ∀ r c : Fin 4, -b ≤ m.at r c ∧ m.at r c ≤ b

/-- The bound on a pass's outputs where `b` bounds its inputs: `4*C16*b`, rounded (40_arithmetic.md R108). -/
def passBound (b : Int) : Int := (46340 * b + 8192) / 16384

theorem le_passBound {b : Int} (hb : 0 ≤ b) : b ≤ passBound b := by
  unfold passBound
  omega

theorem fits_of_within {n : Nat} {b v : Int} (hv : -b ≤ v ∧ v ≤ b) (hb : b ≤ pow2 (n - 1) - 1) : fits n v :=
  ⟨by omega, by omega⟩

theorem Vec4.within_iff {b : Int} {v : Vec4 Int} :
    Vec4.Within b v ↔
      (-b ≤ v.v0 ∧ v.v0 ≤ b) ∧ (-b ≤ v.v1 ∧ v.v1 ≤ b) ∧ (-b ≤ v.v2 ∧ v.v2 ≤ b) ∧ (-b ≤ v.v3 ∧ v.v3 ≤ b) := by
  simp only [Vec4.Within, Fin.forall_fin_succ, IsEmpty.forall_iff, and_true]
  rfl

theorem Params.defaultTable_iff {p : Params} :
    p.defaultTable = true ↔ p.radix = 14 ∧ p.c8 = 15137 ∧ p.c16 = 11585 ∧ p.c24 = 6270 := by
  simp [Params.defaultTable, and_assoc]

/-- Each output is the rounding of an accumulator (42_butterfly.md R141). -/
theorem butterflyExact_y (p : Params) (a : Vec4 Int) (k : Fin 4) :
    (butterflyExact p a).y.get k =
      ((butterflyExact p a).t.get (outPlace k) + pow2 (p.radix - 1)) / pow2 p.radix := by
  fin_cases k <;> rfl

section Butterfly

variable {p : Params} {b : Int} {a : Vec4 Int} (hd : p.defaultTable = true) (ha : Vec4.Within b a)
include hd ha

/-- The even outputs sum four inputs times C16, and the odd ones stay below because `2*(C8 + C24) <= 4*C16`. -/
theorem butterflyExact_t_within : Vec4.Within (46340 * b) (butterflyExact p a).t := by
  obtain ⟨-, h8, h16, h24⟩ := Params.defaultTable_iff.1 hd
  obtain ⟨a0, a1, a2, a3⟩ := Vec4.within_iff.1 ha
  simp only [Vec4.within_iff, butterflyExact, h8, h16, h24, Nat.cast_ofNat]
  omega

theorem butterflyExact_y_within : Vec4.Within (passBound b) (butterflyExact p a).y := by
  intro k
  have ht := butterflyExact_t_within hd ha (outPlace k)
  have half : pow2 (14 - 1) = 8192 := by decide
  have one : pow2 14 = 16384 := by decide
  rw [butterflyExact_y, (Params.defaultTable_iff.1 hd).1, half, one, passBound]
  omega

/-- No value a butterfly checks exceeds the bound of its rounding sums. -/
theorem butterflyChecked_within : ∀ v ∈ butterflyChecked p a, -(46340 * b + 8192) ≤ v ∧ v ≤ 46340 * b + 8192 := by
  obtain ⟨hr, h8, h16, h24⟩ := Params.defaultTable_iff.1 hd
  obtain ⟨a0, a1, a2, a3⟩ := Vec4.within_iff.1 ha
  have half : pow2 (14 - 1) = 8192 := by decide
  simp only [butterflyChecked, butterflyExact, hr, h8, h16, h24, half, Nat.cast_ofNat,
    List.forall_mem_cons, List.not_mem_nil, false_imp_iff, implies_true, and_true]
  omega

theorem bfly4_eq_exact (hW : 46340 * b + 8192 ≤ pow2 (p.workingBits - 1) - 1) :
    bfly4 p a = some (butterflyExact p a).y := by
  have fit : ∀ v ∈ butterflyChecked p a, fits p.workingBits v :=
    fun v hv => fits_of_within (butterflyChecked_within hd ha v hv) hW
  rw [bfly4, butterfly_eq, if_pos fit, Option.map_some]

theorem bfly4Narrow_eq_exact (hW : 46340 * b + 8192 ≤ pow2 (p.workingBits - 1) - 1)
    (hL : passBound b ≤ pow2 (p.nativeBits - 1) - 1) :
    bfly4Narrow p a = some (butterflyExact p a).y := by
  rw [bfly4Narrow, bfly4_eq_exact hd ha hW]
  exact Vec4.mapO_eq_some fun k => narrow_of_fits (fits_of_within (butterflyExact_y_within hd ha k) hL)

end Butterfly

/-! ### Ranges of the transform -/

/-- A pass with no check applied: the butterfly of each lane. -/
def passExact (p : Params) (lanes : Blk Int) : Blk Int := Vec4.map (fun a => (butterflyExact p a).y) lanes

theorem passExact_get (p : Params) (lanes : Blk Int) (r : Fin 4) :
    (passExact p lanes).get r = (butterflyExact p (lanes.get r)).y :=
  Vec4.get_map _ lanes r

/-- Pass 1's lanes are the columns of `P` (46_transform.md R222), the rows of its transpose. -/
theorem Blk.columns_eq_transposed {α : Type} (m : Blk α) :
    ⟨Blk.col m 0, Blk.col m 1, Blk.col m 2, Blk.col m 3⟩ = Blk.transposed m := rfl

theorem Blk.within_transposed {b : Int} {m : Blk Int} (h : Blk.Within b m) : Blk.Within b (Blk.transposed m) := by
  intro r c
  rw [Blk.transposed, Blk.at_ofFn]
  exact h c r

section Pass

variable {p : Params} {b : Int} {lanes : Blk Int} (hd : p.defaultTable = true) (h : Blk.Within b lanes)
include hd h

theorem passExact_within : Blk.Within (passBound b) (passExact p lanes) := by
  intro r c
  rw [Blk.at, passExact_get]
  exact butterflyExact_y_within hd (h r) c

theorem pass_eq_exact (hW : 46340 * b + 8192 ≤ pow2 (p.workingBits - 1) - 1)
    (hL : passBound b ≤ pow2 (p.nativeBits - 1) - 1) :
    Vec4.mapO (bfly4Narrow p) lanes = some (passExact p lanes) := by
  refine Vec4.mapO_eq_some fun r => ?_
  rw [passExact_get]
  exact bfly4Narrow_eq_exact hd (h r) hW hL

end Pass

/-- LOAD_SCALE of 16-bit samples cannot overflow (41_load_scale.md R120). -/
theorem scaleBlock_of_fits (p : Params) {x : Blk Int} (hx : ∀ r c : Fin 4, fits 16 (x.at r c)) :
    scaleBlock p x = some (Blk.map (16 * ·) x) :=
  Vec4.mapO_eq_some fun r => Vec4.mapO_eq_some fun c => by
    rw [Blk.map, Vec4.get_map, Vec4.get_map]
    exact scaleSample_of_fits p (hx r c)

theorem nudge_at (m : Blk Int) (r c : Fin 4) : (nudge m).at r c = m.at r c ∨ (nudge m).at r c = m.at r c + 1 := by
  unfold nudge
  split
  · fin_cases r <;> fin_cases c
    · exact .inr rfl
    all_goals exact .inl rfl
  · exact .inl rfl

/-- A legal block's range after LOAD_SCALE and DC_NUDGE (40_arithmetic.md R108). -/
theorem nudge_scaled_within {M : Int} {x : Blk Int} (hx : Blk.Within M x) :
    Blk.Within (16 * M + 1) (nudge (Blk.map (16 * ·) x)) := by
  intro r c
  have hr := hx r c
  have hs : (Blk.map (16 * ·) x).at r c = 16 * x.at r c := Blk.at_map _ x r c
  have hn := nudge_at (Blk.map (16 * ·) x) r c
  omega

theorem finalNorm_within {b : Int} {z : Blk Int} (h : Blk.Within b z) : Blk.Within ((b + 2) / 4) (finalNorm z) := by
  intro u v
  have hz := h u v
  have four : pow2 2 = 4 := by decide
  rw [finalNorm_at, normalizeValue, asr, four]
  omega

/-- A row of R108's table: `i`, `z` and `o` bound I, Z and O for samples of magnitude at most `M`, and pass 2's rounding
sums and `z` fit `w` and `l` bits. -/
abbrev RangeRow (M i z o : Int) (w l : Nat) : Prop :=
  0 ≤ M ∧ passBound (16 * M + 1) = i ∧ passBound i = z ∧ (z + 2) / 4 = o ∧
    46340 * i + 8192 ≤ pow2 (w - 1) - 1 ∧ z ≤ pow2 (l - 1) - 1

/-- No stage overflows in widths that suffice for pass 2, whose bounds exceed those of pass 1. -/
theorem fdct_within {p : Params} {M i z o : Int} {w l : Nat} {x : Blk Int} (row : RangeRow M i z o w l)
    (hd : p.defaultTable = true) (hw : w ≤ p.workingBits) (hl : l ≤ p.nativeBits)
    (hx : ∀ r c : Fin 4, fits 16 (x.at r c)) (h : Blk.Within M x) :
    ∃ m, fdct p x = some m ∧ Blk.Within o m := by
  obtain ⟨hM, rfl, rfl, rfl, sums, narrowed⟩ := row
  have wide := pow2_mono (Nat.sub_le_sub_right hw 1)
  have native := pow2_mono (Nat.sub_le_sub_right hl 1)
  have grows₁ : 16 * M + 1 ≤ passBound (16 * M + 1) := le_passBound (by omega)
  have grows₂ : passBound (16 * M + 1) ≤ passBound (passBound (16 * M + 1)) := le_passBound (by omega)
  have lanes₁ := Blk.within_transposed (nudge_scaled_within h)
  have lanes₂ := Blk.within_transposed (passExact_within hd lanes₁)
  refine ⟨_, ?_, finalNorm_within (passExact_within hd lanes₂)⟩
  simp only [fdct, scaleBlock_of_fits p hx, Option.bind_eq_bind, Option.bind_some, Blk.columns_eq_transposed,
    pass_eq_exact hd lanes₁ (by omega) (by omega), pass_eq_exact hd lanes₂ (by omega) (by omega), Option.pure_def]

/-- Settles O42: R108's table, row by row, in the widths each clause allows. -/
theorem legalInputNeverOverflows : Obligations.LegalInputNeverOverflows := by
  intro p x hd
  have w32 : 32 ≤ p.workingBits := by cases hw : p.working <;> simp [Params.workingBits, WorkingWidth.bits, hw]
  have w64 : p.working = .w64 → 64 ≤ p.workingBits := fun hw => by simp [Params.workingBits, WorkingWidth.bits, hw]
  have l16 : 16 ≤ p.nativeBits := by cases hl : p.native <;> simp [Params.nativeBits, NativeWidth.bits, hl]
  have l32 : p.native = .l32 → 32 ≤ p.nativeBits := fun hl => by simp [Params.nativeBits, NativeWidth.bits, hl]
  have row8 : RangeRow 255 11543 32648 8162 32 16 := by decide
  have row10 : RangeRow 1023 46298 130948 32737 32 32 := by decide
  have row12 : RangeRow 4095 185318 524148 131037 64 32 := by decide
  have row16 : RangeRow 32768 1482883 4194141 1048535 64 32 := by decide
  have p15 : pow2 (16 - 1) = 32768 := by decide
  refine ⟨fun hx => ?_, fun hl hx => ?_, fun hl hw hx => ?_, fun hl hw hx => ?_⟩
  · exact fdct_within row8 hd w32 l16 (fun r c => fits_of_within (hx r c) (by decide)) hx
  · exact fdct_within row10 hd w32 (l32 hl) (fun r c => fits_of_within (hx r c) (by decide)) hx
  · exact fdct_within row12 hd (w64 hw) (l32 hl) (fun r c => fits_of_within (hx r c) (by decide)) hx
  · refine fdct_within row16 hd (w64 hw) (l32 hl) hx fun r c => ?_
    have := hx r c
    omega

/-! ### Blocks that overflow -/

/-- Settles O43: four closed blocks, each of which FDCT evaluates. -/
theorem narrowBuildsOverflow : Obligations.NarrowBuildsOverflow := by
  unfold Obligations.NarrowBuildsOverflow
  decide

end Sys2Proof.Machine
end

section
/-! PROOFS. LOAD_SCALE and DC_NUDGE in a running operation (41_load_scale.md). -/

namespace Sys2Proof.Machine

open Sys2Proof

/-! ### LOAD_SCALE -/

theorem exec_loadScale_inside {s : State} (hb : s.seq = .busy) (hok : s.operands.addressOk s.params = true) :
    exec .loadScale s =
      .next (({ s with work := { s.work with p := Blk.map (16 * ·) s.window } } : State).drawn 16) := by
  rw [exec, execLoadScale, inOperation_busy _ hb, if_pos hok, scaleBlock_window]

theorem exec_loadScale_outside {s : State} (hb : s.seq = .busy) (hok : s.operands.addressOk s.params = false) :
    exec .loadScale s = .next (s.raiseError .addr) := by
  rw [exec, execLoadScale, inOperation_busy _ hb, if_neg (Bool.eq_false_iff.1 hok)]

/-- Each value of the scaled window is 16 times what the element held at some time since acceptance
(70_reset_and_hazards.md R404). -/
theorem State.scaled_window_mem (s : State) (r c : Fin 4) :
    ∃ h ∈ s.smem :: s.hist,
      (Blk.map (16 * ·) s.window).at r c = 16 * sampleIn s.params h (s.operands.sampleAddr r c).toNat := by
  obtain ⟨h, hmem, hx⟩ := s.blockSample_mem (4 * r.val + c.val) (s.operands.sampleAddr r c).toNat
  exact ⟨h, hmem, by rw [Blk.at_map, State.window, Blk.at_ofFn, hx]⟩

/-- With no race each value of the scaled window is 16 times what the space holds. -/
theorem State.scaled_window_of_quiet {s : State} (hq : s.hist = []) (r c : Fin 4) :
    (Blk.map (16 * ·) s.window).at r c = 16 * s.sample (s.operands.sampleAddr r c).toNat := by
  rw [Blk.at_map, State.window_of_quiet hq, Blk.at_ofFn]

/-- Settles O25: P is the scaled window, whose addresses are those of the latched operands. -/
theorem loadScaleReadsTheWindow : Obligations.LoadScaleReadsTheWindow := fun s hb =>
  ⟨fun hok => ⟨_, _, exec_loadScale_inside hb hok, rfl, s.scaled_window_mem, State.scaled_window_of_quiet⟩,
    exec_loadScale_outside hb⟩

/-! ### DC_NUDGE -/

theorem nudge_of_zero {m : Blk Int} (h : m.at 0 0 = 0) : nudge m = m :=
  if_neg (not_not_intro h)

theorem nudge_of_ne_zero {m : Blk Int} (h : m.at 0 0 ≠ 0) : nudge m = Blk.put m 0 0 (m.at 0 0 + 1) :=
  if_pos h

theorem Blk.put_corner_at_other (m : Blk Int) (x : Int) {r c : Fin 4} (h : ¬ (r = 0 ∧ c = 0)) :
    (Blk.put m 0 0 x).at r c = m.at r c := by
  fin_cases r <;> fin_cases c
  · exact absurd ⟨rfl, rfl⟩ h
  all_goals rfl

theorem nudge_at_other (m : Blk Int) {r c : Fin 4} (h : ¬ (r = 0 ∧ c = 0)) : (nudge m).at r c = m.at r c := by
  by_cases hz : m.at 0 0 = 0
  · rw [nudge_of_zero hz]
  · rw [nudge_of_ne_zero hz, Blk.put_corner_at_other m _ h]

theorem exec_dcNudge {s : State} (hb : s.seq = .busy) :
    exec .dcNudge s = .next { s with work := { s.work with p := nudge s.work.p } } :=
  inOperation_busy _ hb

/-- Settles O26: the nudge puts one more at a corner that is not zero, and leaves any other block as it is. -/
theorem dcNudgeIsOneAtTheCorner : Obligations.DcNudgeIsOneAtTheCorner := fun s hb => by
  refine ⟨nudge s.work.p, exec_dcNudge hb, fun hne => ?_, fun hz => ?_, fun _ _ => nudge_at_other s.work.p⟩
  · rw [nudge_of_ne_zero hne]
    rfl
  · rw [nudge_of_zero hz, hz]

end Sys2Proof.Machine
end

section
/-! PROOFS. BFLY4 in a running operation (42_butterfly.md). -/

namespace Sys2Proof.Machine

open Sys2Proof

/-! ### The values the rule checks -/

/-- The values of `butterflyChecked` by kind: inputs, split, even side, odd products, odd accumulators, rounding sums in
the order of their accumulators (42_butterfly.md R140, R141). -/
def ruleChecked (p : Params) (a : Vec4 Int) : List Int :=
  let b := butterflyExact p a
  let half := pow2 (p.radix - 1)
  [a.v0, a.v1, a.v2, a.v3, b.s.v0, b.s.v1, b.s.v2, b.s.v3, b.e0, b.e1, b.t.v0, b.t.v1, b.s2c24, b.s3c8, b.negS2,
    b.negS2c8, b.s3c24, b.t.v2, b.t.v3, b.t.v0 + half, b.t.v1 + half, b.t.v2 + half, b.t.v3 + half]

/-- The datapath forms t2 before the products of t3, and rounds t2 before t1, which is frequency order. -/
theorem ruleChecked_perm (p : Params) (a : Vec4 Int) : (ruleChecked p a).Perm (butterflyChecked p a) := by
  unfold ruleChecked butterflyChecked
  iterate 14 refine .cons _ ?_
  have t2_first (x y z t2 : Int) {l m : List Int} (h : l.Perm m) :
      (x :: y :: z :: t2 :: l).Perm (t2 :: x :: y :: z :: m) :=
    (List.perm_middle (l₁ := [x, y, z])).trans (.cons t2 (.append_left [x, y, z] h))
  exact t2_first _ _ _ _ (.cons _ (.cons _ (.swap _ _ _)))

theorem forall_ruleChecked_iff {p : Params} {a : Vec4 Int} {q : Int → Prop} :
    (∀ v ∈ ruleChecked p a, q v) ↔ ∀ v ∈ butterflyChecked p a, q v :=
  forall_congr' fun _ => imp_congr_left (ruleChecked_perm p a).mem_iff

/-! ### BFLY4 -/

/-- The two outcomes of BFLY4 are those of its butterfly. -/
theorem exec_bfly4 {s : State} (hb : s.seq = .busy) (lane : Lane) :
    exec (.bfly4 lane) s =
      if ∀ v ∈ ruleChecked s.params (s.work.lane lane), fits s.params.workingBits v then
        .next { s with work := { s.work with bf := butterflyExact s.params (s.work.lane lane) } }
      else .next (s.raiseError .ovf) := by
  rw [exec, execBfly4, inOperation_busy _ hb, butterfly_eq]
  simp only [forall_ruleChecked_iff]
  by_cases fit : ∀ v ∈ butterflyChecked s.params (s.work.lane lane), fits s.params.workingBits v
  · rw [if_pos fit, if_pos fit]
  · rw [if_neg fit, if_neg fit]

theorem Work.lane_column (w : Work) (c : Fin 4) :
    w.lane (.column c) = ⟨w.p.at 0 c, w.p.at 1 c, w.p.at 2 c, w.p.at 3 c⟩ := rfl

theorem Work.lane_row (w : Work) (r : Fin 4) :
    w.lane (.row r) = ⟨w.t.at r 0, w.t.at r 1, w.t.at r 2, w.t.at r 3⟩ := rfl

/-- Settles O27: the rule's values are those of `butterflyExact`, and BFLY4 checks each of them. -/
theorem butterflyFollowsTheRule : Obligations.ButterflyFollowsTheRule := by
  refine ⟨fun s lane hb => ?_, fun w k => ⟨w.lane_column k, w.lane_row k⟩⟩
  simp only [← pow2_eq]
  exact ⟨fun fit => (exec_bfly4 hb lane).trans (if_pos fit), fun loud => (exec_bfly4 hb lane).trans (if_neg loud)⟩

end Sys2Proof.Machine
end

section
/-! PROOFS. ROUND_SHIFT, as a function and in a running operation (43_round_shift.md). -/

namespace Sys2Proof.Machine

open Sys2Proof

/-! ### The rounding -/

theorem Params.le_workingBits (p : Params) : 32 ≤ p.workingBits := by
  cases hw : p.working <;> simp [Params.workingBits, WorkingWidth.bits, hw]

theorem roundShift_of_fits {p : Params} {v : Int} (h : fits p.workingBits (v + pow2 (p.radix - 1))) :
    roundShift p v = some (asr (v + pow2 (p.radix - 1)) p.radix) :=
  roundShift_eq_some.2 ⟨h, rfl⟩

theorem roundShift_of_not_fits {p : Params} {v : Int} (h : ¬ fits p.workingBits (v + pow2 (p.radix - 1))) :
    roundShift p v = none := by
  rw [roundShift, checkW_eq_none.2 h]

/-- The floor of the rounding sum is a nearest integer, and the upper one of two (43_round_shift.md R161). -/
theorem roundShift_nearest {p : Params} {v y : Int} (hr : 1 ≤ p.radix) (h : roundShift p v = some y) :
    2 * v - 2 ^ p.radix < 2 * (y * 2 ^ p.radix) ∧ 2 * (y * 2 ^ p.radix) ≤ 2 * v + 2 ^ p.radix := by
  obtain ⟨-, rfl⟩ := roundShift_eq_some.1 h
  obtain ⟨lower, upper⟩ := rightShiftIsTheFloor (v + pow2 (p.radix - 1)) p.radix
  have half : (2 : Int) ^ p.radix = 2 * pow2 (p.radix - 1) := by
    rw [← pow2_eq, ← pow2_succ, Nat.sub_add_cancel hr]
  rw [asr] at lower upper
  rw [add_one_mul] at upper
  omega

/-- At the radix 14 a rounding sum within 32 bits passes the check of either W. -/
theorem roundShift_radix_14 {p : Params} {v : Int} (hr : p.radix = 14) (h : fits 32 (v + 8192)) :
    roundShift p v = some ((v + 8192) / 16384) := by
  have half : pow2 (14 - 1) = 8192 := by decide
  have one : pow2 14 = 16384 := by decide
  rw [roundShift_eq_some, hr, half, one]
  exact ⟨fits_mono (Params.le_workingBits p) h, rfl⟩

/-- Settles O22: the bounds are those of the floor of the rounding sum. -/
theorem roundShiftRoundsHalvesUp : Obligations.RoundShiftRoundsHalvesUp :=
  ⟨fun _ _ _ => roundShift_nearest,
    fun _ hr => ⟨roundShift_radix_14 hr (by decide), roundShift_radix_14 hr (by decide)⟩⟩

/-! ### ROUND_SHIFT -/

theorem exec_roundShift_stores {s : State} {k : Fin 4} {y : Int} (hb : s.seq = .busy)
    (hy : roundShift s.params (s.work.bf.t.get k) = some y) :
    exec (.roundShift k) s =
      .next { s with work := { s.work with bf := { s.work.bf with y := s.work.bf.y.set (outPlace k) y } } } := by
  rw [exec, execRoundShift, inOperation_busy _ hb, hy]

theorem exec_roundShift_raises {s : State} {k : Fin 4} (hb : s.seq = .busy)
    (hy : roundShift s.params (s.work.bf.t.get k) = none) :
    exec (.roundShift k) s = .next (s.raiseError .ovf) := by
  rw [exec, execRoundShift, inOperation_busy _ hb, hy]

/-- Frequency order swaps the two middle accumulators (42_butterfly.md R141). -/
theorem outPlace_eq (k : Fin 4) : outPlace k = if k = 1 then 2 else if k = 2 then 1 else k := by
  fin_cases k <;> rfl

theorem Vec4.get_set {α : Type} (v : Vec4 α) (j k : Fin 4) (x : α) :
    (v.set k x).get j = if j = k then x else v.get j := by
  fin_cases k <;> fin_cases j <;> rfl

/-- Settles O28: the output vector is set at the accumulator's place where the rounding sum passes its check. -/
theorem roundShiftOfAnAccumulator : Obligations.RoundShiftOfAnAccumulator := by
  intro s k hb
  simp only [← outPlace_eq, ← pow2_eq]
  refine ⟨fun fit => ⟨_, exec_roundShift_stores hb (roundShift_of_fits fit), ?_, fun j other => ?_⟩,
    fun loud => exec_roundShift_raises hb (roundShift_of_not_fits loud)⟩
  · rw [Vec4.get_set, if_pos rfl, asr]
  · rw [Vec4.get_set, if_neg other]

end Sys2Proof.Machine
end

section
/-! PROOFS. TRANSPOSE, of a block and in a running operation (44_transpose.md). -/

namespace Sys2Proof.Machine

open Sys2Proof

/-! ### The transpose of a block -/

theorem Blk.at_transposed {α : Type} (m : Blk α) (r c : Fin 4) : (Blk.transposed m).at r c = m.at c r :=
  Blk.at_ofFn (fun r c => m.at c r) r c

theorem Blk.transposed_transposed {α : Type} (m : Blk α) : Blk.transposed (Blk.transposed m) = m := rfl

/-- The complete flat index map (44_transpose.md R182). -/
theorem Blk.flat_transposed {α : Type} (m : Blk α) (d : α) :
    Blk.flat (Blk.transposed m) =
      [0, 4, 8, 12, 1, 5, 9, 13, 2, 6, 10, 14, 3, 7, 11, 15].map fun j => (Blk.flat m).getD j d := rfl

/-! ### TRANSPOSE -/

theorem exec_transpose {s : State} (hb : s.seq = .busy) :
    exec .transpose s = .next { s with work := { s.work with t := Blk.transposed s.work.i } } :=
  inOperation_busy _ hb

/-- Settles O30: the block stored in `T` is the transpose of `I`. -/
theorem transposeMovesEveryEntry : Obligations.TransposeMovesEveryEntry := by
  intro s hb
  exact ⟨Blk.transposed s.work.i, exec_transpose hb, Blk.at_transposed s.work.i,
    Blk.transposed_transposed s.work.i, Blk.flat_transposed s.work.i 0⟩

end Sys2Proof.Machine
end

section
/-! PROOFS. FINAL_NORM, of a value and in a running operation (45_final_normalization.md). -/

namespace Sys2Proof.Machine

open Sys2Proof

/-! ### The final division -/

theorem normalizeValue_eq (v : Int) : normalizeValue v = (v + 1) / 4 := by
  have four : pow2 2 = 4 := by decide
  rw [normalizeValue, asr, four]

/-- The result by the remainder modulo 4 (45_final_normalization.md R200). -/
theorem normalizeValue_four_mul_add {m : Int} (h0 : 0 ≤ m) (h3 : m ≤ 3) (q : Int) :
    normalizeValue (4 * q + m) = if m = 3 then q + 1 else q := by
  rw [normalizeValue_eq]
  split <;> omega

/-! ### FINAL_NORM -/

theorem exec_finalNorm {s : State} (hb : s.seq = .busy) :
    exec .finalNorm s = .next { s with work := { s.work with o := finalNorm s.work.z } } :=
  inOperation_busy _ hb

/-- Settles O31: the block stored in `O` is `finalNorm` of `Z`, each entry normalized from its own. -/
theorem finalNormDividesByFour : Obligations.FinalNormDividesByFour := by
  refine ⟨fun s hb => ⟨finalNorm s.work.z, exec_finalNorm hb, fun r c => ?_, fun r c fit => ?_⟩,
    fun q _ h0 h3 => normalizeValue_four_mul_add h0 h3 q⟩
  · rw [finalNorm_at, normalizeValue_eq]
  · rw [finalNorm_at]
    exact fits_normalizeValue (two_le_nativeBits s.params) fit

end Sys2Proof.Machine
end

section
/-! PROOFS. FDCT as the two passes (46_transform.md R222, R223, R225), and what it gives for a zero and a constant block
(R228). -/

namespace Sys2Proof.Machine

open Sys2Proof

/-! ### Entries and passes -/

theorem Vec4.ext_get {α : Type} {v v' : Vec4 α} (h : ∀ k : Fin 4, v.get k = v'.get k) : v = v' := by
  obtain ⟨h0, h1, h2, h3⟩ := forall_fin_four.1 h
  cases v
  cases v'
  exact (Vec4.mk.injEq ..).mpr ⟨h0, h1, h2, h3⟩

theorem Blk.ext_at {α : Type} {m m' : Blk α} (h : ∀ r c : Fin 4, m.at r c = m'.at r c) : m = m' :=
  Vec4.ext_get fun r => Vec4.ext_get (h r)

theorem Vec4.mapO_eq_some_iff {α β : Type} {f : α → Option β} {v : Vec4 α} {w : Vec4 β} :
    Vec4.mapO f v = some w ↔ ∀ k : Fin 4, f (v.get k) = some (w.get k) :=
  ⟨Vec4.mapO_get, Vec4.mapO_eq_some⟩

/-- A lane of a pass goes through if its butterfly does, and NARROW of each of its outputs. -/
theorem bfly4Narrow_eq_some_iff {p : Params} {a w : Vec4 Int} :
    bfly4Narrow p a = some w ↔ ∃ y, bfly4 p a = some y ∧ ∀ k : Fin 4, narrow p (y.get k) = some (w.get k) := by
  unfold bfly4Narrow
  cases bfly4 p a with
  | none => simp
  | some y => simp [Vec4.mapO_eq_some_iff]

theorem Blk.transposed_get {α : Type} (m : Blk α) (r : Fin 4) :
    (Blk.transposed m).get r = ⟨m.at 0 r, m.at 1 r, m.at 2 r, m.at 3 r⟩ := by
  fin_cases r <;> rfl

/-- The scaled and nudged block, entry by entry (41_load_scale.md R120, R121). -/
theorem nudge_scaled_at (x : Blk Int) (r c : Fin 4) :
    (nudge (Blk.map (16 * ·) x)).at r c = 16 * x.at r c + (if r = 0 ∧ c = 0 ∧ x.at 0 0 ≠ 0 then 1 else 0) := by
  have scaled (r c : Fin 4) : (Blk.map (16 * ·) x).at r c = 16 * x.at r c := Blk.at_map _ x r c
  by_cases corner : r = 0 ∧ c = 0
  · obtain ⟨rfl, rfl⟩ := corner
    by_cases hz : x.at 0 0 = 0
    · rw [nudge_of_zero (by rw [scaled]; omega), scaled]
      simp [hz]
    · rw [nudge_of_ne_zero (by rw [scaled]; omega), scaled]
      simp only [hz, ne_eq, not_false_eq_true, and_self, if_true]
      rfl
  · rw [nudge_at_other _ corner, scaled, if_neg fun h => corner ⟨h.1, h.2.1⟩, Int.add_zero]

/-- FDCT is the two passes, lane by lane (46_transform.md R225). Scaling 16-bit samples cannot fail. -/
theorem fdct_eq_some_iff {p : Params} {x o : Blk Int} (hx : ∀ r c : Fin 4, fits 16 (x.at r c)) :
    fdct p x = some o ↔ ∃ i z : Blk Int,
      (∀ c : Fin 4, bfly4Narrow p ((Blk.transposed (nudge (Blk.map (16 * ·) x))).get c) = some (i.get c)) ∧
      (∀ r : Fin 4, bfly4Narrow p ((Blk.transposed i).get r) = some (z.get r)) ∧ o = finalNorm z := by
  simp only [fdct, scaleBlock_of_fits p hx, Option.bind_eq_bind, Option.bind_some, Blk.columns_eq_transposed,
    Option.bind_eq_some_iff, Option.pure_def, Option.some.injEq, Vec4.mapO_eq_some_iff]
  constructor
  · rintro ⟨i, hi, z, hz, rfl⟩
    exact ⟨i, z, hi, hz, rfl⟩
  · rintro ⟨i, z, hi, hz, rfl⟩
    exact ⟨i, hi, z, hz, rfl⟩

/-- Settles O33: `fdct_eq_some_iff` with the lanes, their narrowing and FINAL_NORM spelled out. -/
theorem fdctIsTheTwoPassPipeline : Obligations.FdctIsTheTwoPassPipeline := by
  intro p x o hx pb
  have normalized (z : Blk Int) : o = finalNorm z ↔ ∀ u v : Fin 4, o.at u v = (z.at u v + 1) / 4 := by
    simp only [← normalizeValue_eq, ← finalNorm_at]
    exact ⟨fun h _ _ => by rw [h], Blk.ext_at⟩
  have entry : ∀ r c : Fin 4, (nudge (Blk.map (16 * ·) x)).at r c = pb r c := nudge_scaled_at x
  simp only [fdct_eq_some_iff hx, bfly4Narrow_eq_some_iff, Blk.transposed_get, entry, normalized]
  rfl

/-! ### The zero block -/

theorem one_le_radix_of_legal {p : Params} (h : p.legal = true) : 1 ≤ p.radix := by
  simp only [Params.legal, Bool.and_eq_true, decide_eq_true_eq] at h
  omega

theorem fits_zero (n : Nat) : fits n 0 := by
  have := pow2_pos (n - 1)
  exact ⟨by omega, by omega⟩

/-- The rounding constant of a legal radix fits either W. -/
theorem fits_half {p : Params} (h : p.radix ≤ 30) : fits p.workingBits (pow2 (p.radix - 1)) := by
  have pos := pow2_pos (p.radix - 1)
  have small : pow2 (p.radix - 1) ≤ pow2 (30 - 1) := pow2_mono (Nat.sub_le_sub_right h 1)
  have wide : pow2 (32 - 1) ≤ pow2 (p.workingBits - 1) := pow2_mono (Nat.sub_le_sub_right (Params.le_workingBits p) 1)
  have apart : pow2 (30 - 1) < pow2 (32 - 1) := by decide
  exact ⟨by omega, by omega⟩

/-- Half a unit of the radix is shifted to 0. -/
theorem half_div_unit {n : Nat} (h : 1 ≤ n) : pow2 (n - 1) / pow2 n = 0 := by
  obtain ⟨m, rfl⟩ := Nat.exists_eq_add_of_le' h
  have := pow2_pos m
  rw [Nat.add_sub_cancel, pow2_succ]
  exact Int.ediv_eq_zero_of_lt (by omega) (by omega)

/-- A zero lane checks 0 and, before each shift, the rounding constant. -/
theorem bfly4Narrow_zero {p : Params} (h1 : 1 ≤ p.radix) (h30 : p.radix ≤ 30) :
    bfly4Narrow p zeroVec = some zeroVec := by
  have outputs : (butterflyExact p zeroVec).y = zeroVec := by
    simp [butterflyExact, zeroVec, half_div_unit h1]
  have values : ∀ v ∈ butterflyChecked p zeroVec, v = 0 ∨ v = pow2 (p.radix - 1) := by
    simp [butterflyChecked, butterflyExact, zeroVec]
  have fit : ∀ v ∈ butterflyChecked p zeroVec, fits p.workingBits v := fun v hv => by
    obtain rfl | rfl := values v hv
    · exact fits_zero _
    · exact fits_half h30
  refine bfly4Narrow_eq_some_iff.2 ⟨zeroVec, ?_, forall_fin_four.2 ?_⟩
  · rw [bfly4, butterfly_eq, if_pos fit, Option.map_some, outputs]
  · have zero : narrow p 0 = some 0 := narrow_of_fits (fits_zero _)
    exact ⟨zero, zero, zero, zero⟩

/-- Settles O44: every lane of both passes is zero, and a zero is not nudged. -/
theorem zeroBlockGivesZeros : Obligations.ZeroBlockGivesZeros := by
  intro p legal
  have lane := bfly4Narrow_zero (one_le_radix_of_legal legal) (radix_addrBits_of_legal legal).1
  have lanes : ∀ k : Fin 4, bfly4Narrow p (zeroBlk.get k) = some (zeroBlk.get k) :=
    forall_fin_four.2 ⟨lane, lane, lane, lane⟩
  refine (fdct_eq_some_iff fun r c => ?_).2 ⟨zeroBlk, zeroBlk, lanes, lanes, rfl⟩
  rw [Blk.at_ofFn]
  exact fits_zero 16

/-! ### A constant block -/

/-- A lane that is constant but for its first entry: what the nudge makes of a constant block, in both passes. -/
def nudgedLane (a d : Int) : Vec4 Int := ⟨a + d, a, a, a⟩

/-- The DC output of a lane with this sum, at the default table: the sum times C16, rounded (42_butterfly.md R140,
R141). -/
def dcOutput (sum : Int) : Int := (11585 * sum + 8192) / 16384

/-- The outputs of `nudgedLane a d` where `d` is 0 or 1 (`bfly4Narrow_nudgedLane`). -/
def nudgedOutputs (a d : Int) : Vec4 Int := ⟨dcOutput (4 * a + d), d, d, 0⟩

/-- Beside the DC output a nudge of one is rounded to 1 in the middle two outputs and to 0 in the last. -/
theorem bfly4Narrow_nudgedLane {p : Params} (hd : p.defaultTable = true) (hl : p.native = .l32) (hw : p.working = .w64)
    {a d : Int} (ha : -1500000 ≤ a ∧ a ≤ 1500000) (h01 : d = 0 ∨ d = 1) :
    bfly4Narrow p (nudgedLane a d) = some (nudgedOutputs a d) := by
  obtain ⟨hr, h8, h16, h24⟩ := Params.defaultTable_iff.1 hd
  have w64 : p.workingBits = 64 := by rw [Params.workingBits, hw]; rfl
  have l32 : p.nativeBits = 32 := by rw [Params.nativeBits, hl]; rfl
  have within : Vec4.Within 1500001 (nudgedLane a d) := by
    simp only [Vec4.within_iff, nudgedLane]
    omega
  have half : pow2 (14 - 1) = 8192 := by decide
  have one : pow2 14 = 16384 := by decide
  rw [bfly4Narrow_eq_exact hd within (by rw [w64]; decide) (by rw [l32]; decide)]
  simp only [butterflyExact, nudgedLane, nudgedOutputs, dcOutput, hr, h8, h16, h24, half, one, Nat.cast_ofNat,
    Option.some.injEq, Vec4.mk.injEq]
  omega

/-- What the nudge adds to the corner of a constant block. -/
def cornerNudge (k : Int) : Int := if k = 0 then 0 else 1

/-- How much higher that makes the DC output of pass 1's first lane. -/
def dcExcess (k : Int) : Int := dcOutput (4 * (16 * k) + cornerNudge k) - dcOutput (4 * (16 * k) + 0)

/-- `I` for a constant block (44_transpose.md R180). -/
def constantI (k : Int) : Blk Int :=
  ⟨nudgedOutputs (16 * k) (cornerNudge k), nudgedOutputs (16 * k) 0, nudgedOutputs (16 * k) 0, nudgedOutputs (16 * k) 0⟩

/-- `Z` for a constant block (46_transform.md R223). -/
def constantZ (k : Int) : Blk Int :=
  ⟨nudgedOutputs (dcOutput (4 * (16 * k) + 0)) (dcExcess k), nudgedOutputs 0 (cornerNudge k),
    nudgedOutputs 0 (cornerNudge k), nudgedOutputs 0 0⟩

theorem cornerNudge_cases (k : Int) : cornerNudge k = 0 ∨ cornerNudge k = 1 := by
  unfold cornerNudge
  split <;> simp

theorem dcExcess_cases (k : Int) : dcExcess k = 0 ∨ dcExcess k = 1 := by
  have := cornerNudge_cases k
  simp only [dcExcess, dcOutput]
  omega

/-- The lanes of pass 1. -/
theorem columns_constant (k : Int) :
    Blk.transposed (nudge (Blk.map (16 * ·) (Blk.ofFn fun _ _ => k))) =
      ⟨nudgedLane (16 * k) (cornerNudge k), nudgedLane (16 * k) 0, nudgedLane (16 * k) 0, nudgedLane (16 * k) 0⟩ := by
  refine Blk.ext_at fun r c => ?_
  rw [Blk.at_transposed, nudge_scaled_at]
  simp only [Blk.at_ofFn, cornerNudge]
  fin_cases r <;> fin_cases c <;> simp [Blk.at, Vec4.get, nudgedLane]

/-- The lanes of pass 2. -/
theorem transposed_constantI (k : Int) :
    Blk.transposed (constantI k) =
      ⟨nudgedLane (dcOutput (4 * (16 * k) + 0)) (dcExcess k), nudgedLane 0 (cornerNudge k),
        nudgedLane 0 (cornerNudge k), nudgedLane 0 0⟩ := by
  simp [Blk.transposed, Blk.ofFn, Vec4.ofFn, Blk.at, Vec4.get, constantI, nudgedOutputs, nudgedLane, dcExcess]

/-- Of a constant block all but the DC coefficient are normalized to 0. -/
theorem finalNorm_constantZ_other (k : Int) {u v : Fin 4} (h : ¬ (u = 0 ∧ v = 0)) :
    (finalNorm (constantZ k)).at u v = 0 := by
  have hn := cornerNudge_cases k
  have hd := dcExcess_cases k
  rw [finalNorm_at, normalizeValue_eq]
  fin_cases u <;> fin_cases v
  · exact absurd ⟨rfl, rfl⟩ h
  all_goals
    simp only [constantZ, nudgedOutputs, Blk.at, Vec4.get, dcOutput]
    omega

/-- While `|k| <= 178` the roundings of the two passes and of the normalization leave exactly 32k
(45_final_normalization.md R202). -/
theorem finalNorm_constantZ_dc : ∀ k : Int, -178 ≤ k → k ≤ 178 → (finalNorm (constantZ k)).at 0 0 = 32 * k := by
  decide +kernel

/-- Every lane of both passes is constant but for a first entry that may be one higher. -/
theorem fdct_constant {p : Params} {k : Int} (hd : p.defaultTable = true) (hl : p.native = .l32)
    (hw : p.working = .w64) (hk : fits 16 k) :
    fdct p (Blk.ofFn fun _ _ => k) = some (finalNorm (constantZ k)) := by
  have h15 : pow2 (16 - 1) = 32768 := by decide
  have range : -32768 ≤ k ∧ k ≤ 32767 := by
    simp only [fits, h15] at hk
    omega
  have range₂ : -1500000 ≤ dcOutput (4 * (16 * k) + 0) ∧ dcOutput (4 * (16 * k) + 0) ≤ 1500000 := by
    unfold dcOutput
    omega
  have lane {a d : Int} := bfly4Narrow_nudgedLane (a := a) (d := d) hd hl hw
  have lane₁ {d : Int} := lane (a := 16 * k) (d := d) (by omega)
  have lane₀ {d : Int} := lane (a := 0) (d := d) (by omega)
  have nudged := cornerNudge_cases k
  refine (fdct_eq_some_iff fun r c => ?_).2 ⟨constantI k, constantZ k, ?_, ?_, rfl⟩
  · rw [Blk.at_ofFn]
    exact hk
  · rw [columns_constant]
    exact forall_fin_four.2 ⟨lane₁ nudged, lane₁ (.inl rfl), lane₁ (.inl rfl), lane₁ (.inl rfl)⟩
  · rw [transposed_constantI]
    exact forall_fin_four.2 ⟨lane range₂ (dcExcess_cases k), lane₀ nudged, lane₀ nudged, lane₀ (.inl rfl)⟩

/-- Settles O45: the clauses are those of the block `finalNorm (constantZ k)`. -/
theorem constantBlockHasOnlyDc : Obligations.ConstantBlockHasOnlyDc := fun _ k hd hl hw hk =>
  ⟨finalNorm (constantZ k), fdct_constant hd hl hw hk, fun _ _ => finalNorm_constantZ_other k, finalNorm_constantZ_dc k⟩

end Sys2Proof.Machine
end

section
/-! PROOFS. FDCT4X4 from its issue to its completion (46_transform.md R220, R221, R224, R227). -/

namespace Sys2Proof.Machine

open Sys2Proof

/-! ### The issue -/

/-- Settles O9: what the command answers is `State.accept`. -/
theorem fdctIsAcceptedWhileIdle : Obligations.FdctIsAcceptedWhileIdle := fun s hi hw =>
  ⟨s.accept, exec_decode_accepted hi hw, by rw [State.accept_status]; decide, rfl, rfl, rfl, rfl, rfl, rfl⟩

/-! ### The end of an operation -/

/-- Whichever way an operation ends, it is FINISH of a code in use (46_transform.md R221, 60_exceptions.md R300). -/
theorem State.afterCompletion_finished (s : State) :
    s.afterCompletion.seq = .idle ∧
      ∃ code : BitVec 4, code.toNat ≤ 3 ∧ s.afterCompletion.status = .completed code := by
  cases hok : s.operands.addressOk s.params with
  | false =>
    rw [State.afterCompletion_addr hok]
    exact ⟨rfl, 2#4, by decide, State.raiseError_status s .addr⟩
  | true =>
    cases hf : fdct s.params s.window with
    | none =>
      rw [State.afterCompletion_ovf hok hf]
      exact ⟨rfl, 3#4, by decide, State.raiseError_status (s.drawn 16) .ovf⟩
    | some o =>
      rw [State.afterCompletion_commit hok hf]
      exact ⟨State.commit_seq _, 0#4, by decide, State.commit_status _⟩

/-- Settles O53: the completion step always answers, and FINISH sets the fields. -/
theorem completionAlwaysEndsTheOperation : Obligations.CompletionAlwaysEndsTheOperation := by
  intro s hb
  obtain ⟨idle, code, hc, hst⟩ := s.afterCompletion_finished
  refine ⟨s.afterCompletion, completeOp_eq hb, idle, ?_, ?_, ?_⟩ <;> rw [hst]
  · rfl
  · rfl
  · exact Status.completed_agrees hc

/-! ### The commit of FDCT, with no race -/

/-- The state in which an operation of result `o` commits (46_transform.md R221 item 4). -/
def State.withResult (s : State) (o : Blk Int) : State := ({ s with work := { s.work with o := o } } : State).drawn 16

/-- With no race the operation transforms what the sample space holds. -/
theorem completeOp_quiet {s : State} {o : Blk Int} (hb : s.seq = .busy) (hok : s.operands.addressOk s.params = true)
    (hq : s.quiet)
    (hf : fdct s.params (Blk.ofFn fun r c => s.sample (s.operands.sampleAddr r c).toNat) = some o) :
    completeOp s = .next (s.withResult o).commit := by
  rw [← State.window_of_quiet hq.1] at hf
  rw [completeOp_eq hb, State.afterCompletion_commit hok hf]
  rfl

theorem State.coefRaced_of_quiet {s : State} (h : s.raced = []) (a : Nat) : s.coefRaced a = false := by
  simp [State.coefRaced, h]

/-- The window holds the result in row-major order (46_transform.md R224). -/
theorem State.coef_withResult_commit_inside {s : State} {o x : Blk Int} (hq : s.raced = [])
    (hf : fdct s.params x = some o) (u v : Fin 4) :
    (s.withResult o).commit.coef (s.operands.outBase + (4 * u.val + v.val)) = o.at u v := by
  obtain h | ⟨h, -⟩ := State.coef_commit_cases (s := s.withResult o) (fdct_record hf).2 u v
  · exact h
  · rw [State.coefRaced_of_quiet (s := s.withResult o) hq] at h
    cases h

theorem State.coef_commit_outside (s : State) (a : Nat)
    (h : a < s.operands.outBase ∨ s.operands.outBase + 16 ≤ a) : s.commit.coef a = s.coef a := by
  rw [State.commit_coef, State.coef_writeCoefs_outside]
  rwa [State.length_committed]

theorem State.read_commit_outside (s : State) (x : Nat)
    (h : x < coefByteAddr s.params s.operands.outBase ∨
      coefByteAddr s.params s.operands.outBase + 16 * s.params.native.bytes ≤ x) :
    s.commit.coefMem.read x = s.coefMem.read x := by
  rw [State.commit_coefMem, State.read_writeCoefs_outside]
  rwa [State.length_committed, Nat.mul_comm]

/-- Settles O34: the operation ends in the commit of its result, which writes the window alone. -/
theorem completionCommitsFdct : Obligations.CompletionCommitsFdct := by
  intro s o hb hok hq hf
  let u := s.withResult o
  refine ⟨u.commit, completeOp_quiet hb hok hq hf, u.commit_status, ?_, u.commit_seq,
    State.coef_withResult_commit_inside hq.2 hf, u.coef_commit_outside,
    fun x hx => ⟨u.read_commit_outside x hx, fun hs => ?_⟩, fun hp => State.commit_smem_separate (s := u) hp,
    u.commit_params, u.commit_inBase, u.commit_inStride, u.commit_outBase, u.commit_latInBase, u.commit_latInStride,
    u.commit_latOutBase, u.commit_host, u.commit_agenda⟩
  · rw [State.commit_status]
    decide
  · have := u.read_commit_outside x hx
    rwa [State.coefMem_shared u hs, State.coefMem_shared u.commit (by rw [State.commit_params]; exact hs)] at this

/-- Settles O35: the accepted operation's operands are the registers', and it runs with no race. -/
theorem commandThenCompletionTransforms : Obligations.CommandThenCompletionTransforms := by
  intro s o hi hok hw hf
  obtain ⟨u, hu, -, status, idle, inside, outside, -, samples, -, inBase, inStride, outBase, -⟩ :=
    completionCommitsFdct s.accept o rfl hok ⟨rfl, rfl⟩ hf
  refine ⟨s.accept, u, exec_decode_accepted hi fun h => ?_, by rw [State.accept_status]; decide,
    hu, status, idle, inside, outside, samples, inBase, inStride, outBase⟩
  rw [hw] at h
  exact absurd h.2 Bool.false_ne_true

/-- Settles O40: equal samples give one FDCT, which both operations commit or fail with. -/
theorem resultDependsOnSamplesAlone : Obligations.ResultDependsOnSamplesAlone := by
  intro s₁ s₂ hp hb₁ hb₂ hq₁ hq₂ hok₁ hok₂ same
  have windows : s₁.window = s₂.window := by
    refine Blk.ext_at fun r c => ?_
    rw [State.window_of_quiet hq₁.1, State.window_of_quiet hq₂.1, Blk.at_ofFn, Blk.at_ofFn, same]
  cases hf₁ : fdct s₁.params s₁.window with
  | none =>
    have hf₂ : fdct s₂.params s₂.window = none := by rwa [← hp, ← windows]
    refine ⟨_, _, completeOp_eq hb₁, completeOp_eq hb₂, ?_, fun noError => ?_⟩
    · rw [State.afterCompletion_ovf hok₁ hf₁, State.afterCompletion_ovf hok₂ hf₂, State.raiseError_status,
        State.raiseError_status]
    · rw [State.afterCompletion_ovf hok₁ hf₁, State.raiseError_status] at noError
      cases noError
  | some o =>
    have hf₂ : fdct s₂.params s₂.window = some o := by rwa [← hp, ← windows]
    refine ⟨(s₁.withResult o).commit, (s₂.withResult o).commit, ?_, ?_, ?_, fun _ i hi => ?_⟩
    · exact completeOp_quiet hb₁ hok₁ hq₁ (by rwa [← State.window_of_quiet hq₁.1])
    · exact completeOp_quiet hb₂ hok₂ hq₂ (by rwa [← State.window_of_quiet hq₂.1])
    · rw [State.commit_status, State.commit_status]
    · have e : i = 4 * (i / 4) + i % 4 := (Nat.div_add_mod i 4).symm
      have inside₁ := State.coef_withResult_commit_inside hq₁.2 hf₁ ⟨i / 4, by omega⟩ ⟨i % 4, by omega⟩
      have inside₂ := State.coef_withResult_commit_inside hq₂.2 hf₂ ⟨i / 4, by omega⟩ ⟨i % 4, by omega⟩
      rw [e]
      exact inside₁.trans inside₂.symm

end Sys2Proof.Machine
end

section
/-! PROOFS. Errors and reset (60_exceptions.md, 70_reset_and_hazards.md): a command that is rejected or dropped, what an
error, an ended operation and a reset leave, the parameters in every step, and that an operation ends. -/

namespace Sys2Proof.Machine

open Sys2Proof

/-! ### Commands that start nothing -/

/-- STATUS of an error: not BUSY, DONE, ERR and the error's code (60_exceptions.md R300). -/
theorem Status.completed_errCode (e : ErrCode) : Status.completed e.code = ⟨false, true, true, e.code⟩ := by
  cases e <;> rfl

/-- Settles O10: a reserved word is any word but 0x00000001, and E_BADCMD sets STATUS alone. -/
theorem reservedCommandIsRejected : Obligations.ReservedCommandIsRejected := by
  intro s w hw
  have reserved : exec (.reserved w) s = exec (decode w) s := by rw [decode_of_ne_one hw]
  refine ⟨decode_of_ne_one hw, fun hi => ⟨?_, by decide⟩, fun hb => reserved.trans (exec_decode_busy hb w),
    decode_of_ne_one (by decide), decode_of_ne_one (by decide)⟩
  exact reserved.trans (exec_decode_rejected hi hw)

/-- Settles O11: a CMD write runs the decoded command, which a running operation drops. -/
theorem commandWhileBusyIsDropped : Obligations.CommandWhileBusyIsDropped := fun s w hb =>
  ⟨exec_decode_busy hb w, (hostAction_writeReg_cmd w s).trans (exec_decode_busy hb w)⟩

/-! ### What an error leaves -/

theorem State.raiseError_seq (s : State) {e : ErrCode} (he : e ≠ .badCmd) : (s.raiseError e).seq = .idle := by
  cases e with
  | badCmd => exact absurd rfl he
  | addr => exact s.raiseError_addr_seq
  | ovf => exact s.raiseError_ovf_seq

/-- Only E_OVF writes memory (60_exceptions.md R306). -/
theorem State.raiseError_memories (s : State) {e : ErrCode} (he : e ≠ .ovf) :
    (s.raiseError e).smem = s.smem ∧ (s.raiseError e).cmem = s.cmem := by
  cases e with
  | badCmd => exact ⟨rfl, rfl⟩
  | addr => exact ⟨rfl, rfl⟩
  | ovf => exact absurd rfl he

/-- An error changes the bytes of the coefficient window at most. -/
theorem State.read_raiseError_outside (s : State) (e : ErrCode) (x : Nat)
    (h : x < coefByteAddr s.params s.operands.outBase ∨
      coefByteAddr s.params s.operands.outBase + 16 * s.params.native.bytes ≤ x) :
    (s.raiseError e).coefMem.read x = s.coefMem.read x := by
  by_cases he : e = .ovf
  · rw [he, State.raiseError_ovf, State.finish_coefMem, State.read_freeWindow_outside s x h]
  · obtain ⟨smem, cmem⟩ := s.raiseError_memories he
    rw [State.coefMem_congr (s.raiseError_params e) smem cmem]

/-- Settles O13: a field lemma for each clause, and E_OVF alone writes, within the window. -/
theorem errorsChangeOnlyWhatTheyMay : Obligations.ErrorsChangeOnlyWhatTheyMay := fun s e =>
  ⟨(s.raiseError_status e).trans (Status.completed_errCode e), s.raiseError_seq, s.raiseError_params e,
    s.raiseError_inBase e, s.raiseError_inStride e, s.raiseError_outBase e, s.raiseError_latInBase e,
    s.raiseError_latInStride e, s.raiseError_latOutBase e, s.raiseError_host e, s.raiseError_agenda e,
    s.raiseError_memories, s.read_raiseError_outside e, fun hp => State.raiseError_smem_separate hp e⟩

/-! ### An operation that ends in an error -/

/-- An operation whose address check passes does not end with the code of E_ADDR. -/
theorem State.afterCompletion_ecode_ne_addr {s : State} (hok : s.operands.addressOk s.params = true) :
    s.afterCompletion.status.ecode ≠ 2#4 := by
  cases hf : fdct s.params s.window with
  | none => rw [State.afterCompletion_ovf hok hf, State.raiseError_status]; decide
  | some o => rw [State.afterCompletion_commit hok hf, State.commit_status]; decide

/-- Settles O36: the addresses are those of the check, which decides between E_ADDR and the rest. -/
theorem addressErrorTouchesNoMemory : Obligations.AddressErrorTouchesNoMemory := by
  intro s hb addr outBase ok
  have check : s.operands.addressOk s.params = true ↔ ok := Operands.addressOk_iff s.params s.operands
  refine ⟨fun bad => ⟨s.raiseError .addr, ?_, ?_, rfl⟩,
    fun good => ⟨_, completeOp_eq hb, State.afterCompletion_ecode_ne_addr (check.2 good)⟩⟩
  · rw [completeOp_eq hb, State.afterCompletion_addr (Bool.eq_false_iff.2 fun h => bad (check.1 h))]
  · rw [State.raiseError_status]
    decide

/-- E_OVF leaves every coefficient element outside the window. -/
theorem State.coef_raiseError_ovf_outside (s : State) (a : Nat)
    (h : a < s.operands.outBase ∨ s.operands.outBase + 16 ≤ a) : (s.raiseError .ovf).coef a = s.coef a := by
  rw [State.raiseError_ovf, State.finish_coef, State.coef_freeWindow_outside s a h]

/-- Settles O37: the operation ends in E_OVF once its samples are drawn, and what an error leaves is known. -/
theorem overflowReachesTheWindowOnly : Obligations.OverflowReachesTheWindowOnly := by
  intro s hb hok hf
  let u := s.drawn 16
  obtain ⟨status, idle, params, inBase, inStride, outBase, latInBase, latInStride, latOutBase, -, -, -, bytes,
    samples⟩ := errorsChangeOnlyWhatTheyMay u .ovf
  refine ⟨u.raiseError .ovf, ?_, status, ?_, idle (by decide), u.coef_raiseError_ovf_outside,
    fun x hx => ⟨bytes x hx, fun hs => ?_⟩, samples, params, inBase, inStride, outBase, latInBase, latInStride,
    latOutBase⟩
  · rw [completeOp_eq hb, State.afterCompletion_ovf hok hf]
  · rw [status]
    decide
  · have shared : (u.raiseError .ovf).params.isShared = true := by rw [params]; exact hs
    rw [← State.coefMem_shared _ shared, bytes x hx]
    exact congrArg (Memory.read · x) (State.coefMem_shared u hs)

/-! ### What a reset leaves -/

/-- The reserved bits of the address registers read 0 (10_state.md R26, R28). -/
theorem State.readReg_addr_lt (s : State) :
    (s.readReg 0x04).toNat < 2 ^ s.params.addrBits ∧ (s.readReg 0x0C).toNat < 2 ^ s.params.addrBits := by
  have masked (v : Word) : (maskAddr s.params v).toNat < 2 ^ s.params.addrBits := by
    rw [toNat_maskAddr]
    exact Nat.mod_lt _ (Nat.two_pow_pos _)
  exact ⟨masked s.inBase, masked s.outBase⟩

/-- CONFIG reads the parameters. -/
theorem State.readReg_config_congr {s t : State} (h : t.params = s.params) : t.readReg 0x14 = s.readReg 0x14 :=
  congrArg configWord h

theorem State.clearBlock_coefMem (s : State) : s.clearBlock.coefMem = s.coefMem :=
  State.coefMem_congr s.clearBlock_params s.clearBlock_smem s.clearBlock_cmem

/-- A reset changes the bytes of a running operation's coefficient window at most. -/
theorem State.read_resetEvent_outside (s : State) (x : Nat)
    (h : x < coefByteAddr s.params s.operands.outBase ∨
      coefByteAddr s.params s.operands.outBase + 16 * s.params.native.bytes ≤ x) :
    s.resetEvent.coefMem.read x = s.coefMem.read x := by
  cases hs : s.seq with
  | idle => rw [State.resetEvent_idle hs, State.clearBlock_coefMem]
  | busy => rw [State.resetEvent_busy hs, State.clearBlock_coefMem, State.read_freeWindow_outside s x h]

theorem State.resetEvent_smem_separate {s : State} (hp : s.params.platform = .separate) :
    s.resetEvent.smem = s.smem := by
  cases hs : s.seq with
  | idle => rw [State.resetEvent_idle hs, State.clearBlock_smem]
  | busy => rw [State.resetEvent_busy hs, State.clearBlock_smem, State.freeWindow_smem_separate s hp]

theorem State.resetEvent_idle_memories {s : State} (hi : s.seq = .idle) :
    s.resetEvent.smem = s.smem ∧ s.resetEvent.cmem = s.cmem := by
  rw [State.resetEvent_idle hi]
  exact ⟨s.clearBlock_smem, s.clearBlock_cmem⟩

theorem step_resetTurn {s : State} (h : s.turn.1 = .reset) :
    step s = .next (State.resetEvent { s with agenda := s.turn.2 }) := by
  rw [step_eq, h]; rfl

/-- Settles O46: the step is the reset event, with the turn used up. -/
theorem resetEventAbandonsAndClears : Obligations.ResetEventAbandonsAndClears := by
  intro s h
  let u : State := { s with agenda := s.turn.2 }
  have params : u.resetEvent.params = s.params := u.resetEvent_params
  obtain ⟨inBase, outBase⟩ := u.resetEvent.readReg_addr_lt
  rw [params] at inBase outBase
  refine ⟨u.resetEvent, step_resetTurn h, ?_, u.resetEvent_seq, inBase, outBase, params,
    State.readReg_config_congr params, u.resetEvent_host, u.resetEvent_agenda,
    fun hi => State.resetEvent_idle_memories (s := u) hi, u.read_resetEvent_outside,
    fun hp => State.resetEvent_smem_separate (s := u) hp⟩
  rw [State.resetEvent_status]
  decide

/-! ### The parameters and the agenda in a step -/

/-- `t` has the parameters and the agenda of `s`. -/
abbrev State.SameSetting (s t : State) : Prop := t.params = s.params ∧ t.agenda = s.agenda

theorem State.sameSetting_raiseError (s : State) (e : ErrCode) : s.SameSetting (s.raiseError e) :=
  ⟨s.raiseError_params e, s.raiseError_agenda e⟩

theorem State.sameSetting_afterCompletion (s : State) : s.SameSetting s.afterCompletion := by
  cases hok : s.operands.addressOk s.params with
  | false => rw [State.afterCompletion_addr hok]; exact s.sameSetting_raiseError .addr
  | true =>
    cases hf : fdct s.params s.window with
    | none => rw [State.afterCompletion_ovf hok hf]; exact (s.drawn 16).sameSetting_raiseError .ovf
    | some o => rw [State.afterCompletion_commit hok hf]; exact ⟨State.commit_params _, State.commit_agenda _⟩

theorem State.sameSetting_writeReg (s : State) (offset : Nat) (v : Word) : s.SameSetting (s.writeReg offset v) := by
  rw [State.writeReg_regs]
  exact ⟨rfl, rfl⟩

theorem State.sameSetting_observe (s : State) (offset : Nat) : s.SameSetting (s.observe offset) := by
  unfold State.observe
  split <;> exact ⟨rfl, rfl⟩

theorem State.sameSetting_hostStore (s : State) (coef : Bool) (a : Nat) (bs : List Byte) :
    s.SameSetting (s.hostStore coef a bs) := by
  obtain ⟨-, e⟩ | ⟨-, e | e⟩ := hostStore_cases s coef a bs <;> rw [e]
  · exact ⟨by simp, by simp⟩
  · exact ⟨by simp, by simp⟩
  · exact ⟨by simp, by simp⟩

theorem exec_decode_sameSetting {s t : State} {w : Word} (h : exec (decode w) s = .next t) : s.SameSetting t := by
  obtain ⟨-, rfl⟩ | ⟨-, -, rfl, -⟩ | ⟨-, -, rfl⟩ := exec_decode_cases h
  · exact ⟨rfl, rfl⟩
  · exact ⟨s.accept_params, s.accept_agenda⟩
  · exact s.sameSetting_raiseError .badCmd

theorem hostAction_sameSetting {st : HostStmt} {s t : State} (h : hostAction st s = .next t) : s.SameSetting t := by
  obtain ⟨w, -, hcmd⟩ | ⟨offset, v, -, -, rfl⟩ | ⟨dst, offset, -, rfl⟩ | ⟨coef, a, bs, rfl⟩ | ⟨dst, v, rfl⟩ | ⟨n, rfl⟩ :=
    hostAction_cases h
  · exact exec_decode_sameSetting hcmd
  · exact s.sameSetting_writeReg offset v
  · exact s.sameSetting_observe offset
  · exact s.sameSetting_hostStore coef a bs
  · exact ⟨rfl, rfl⟩
  · exact ⟨rfl, rfl⟩

/-- A step leaves the parameters, and of the agenda it uses up its turn alone. -/
theorem step_setting {s t : State} (h : step s = .next t) : t.params = s.params ∧ t.agenda = s.turn.2 := by
  cases hturn : s.turn.1 with
  | host =>
    cases hst : s.nextStmt with
    | none =>
      obtain rfl := Host.Outcome.next.inj ((step_hostDone hturn hst).symm.trans h)
      exact ⟨rfl, rfl⟩
    | some st => exact hostAction_sameSetting ((step_hostStmt hturn hst).symm.trans h)
  | block =>
    obtain ⟨-, rfl⟩ | ⟨-, rfl⟩ := completeOp_next ((step_blockTurn hturn).symm.trans h)
    · exact ⟨rfl, rfl⟩
    · exact State.sameSetting_afterCompletion { s with agenda := s.turn.2 }
  | reset =>
    obtain rfl := Host.Outcome.next.inj ((step_resetTurn hturn).symm.trans h)
    exact ⟨State.resetEvent_params _, State.resetEvent_agenda _⟩

/-- Settles O50: a step leaves the parameters, and CONFIG reads them. -/
theorem parametersNeverChange : Obligations.ParametersNeverChange := fun _ _ h =>
  ⟨(step_setting h).1, State.readReg_config_congr (step_setting h).1⟩

/-! ### An operation ends -/

/-- A run of one step more is that step, and the run from where it ends. -/
theorem run_succ_eq {M : Host.Core} {s t : M.State} (h : M.step s = .next t) (k : Nat) :
    M.run (k + 1) s = M.run k t := by
  rw [Host.Core.run, h]

/-- A run that goes on begins with a step that goes on. -/
theorem step_of_run_succ {M : Host.Core} {s u : M.State} {k : Nat} (h : M.run (k + 1) s = .next u) :
    ∃ t, M.step s = .next t := by
  unfold Host.Core.run at h
  split at h
  · exact ⟨_, ‹_›⟩
  · cases h
  · cases h

/-- With nothing on the agenda the next step of a BUSY block ends its operation (70_reset_and_hazards.md R409). -/
theorem step_ends_of_agenda_nil {s : State} (hb : s.seq = .busy) (ha : s.agenda = []) :
    ∃ t, step s = .next t ∧ t.seq = .idle := by
  have hturn : s.turn.1 = .block := by simp only [State.turn, ha, defaultTurn, hb]
  obtain ⟨t, ht, idle, -⟩ := completionAlwaysEndsTheOperation { s with agenda := s.turn.2 } hb
  exact ⟨t, (step_blockTurn hturn).trans ht, idle⟩

/-- Settles O54, by induction on the agenda: each step that leaves the block BUSY uses up a turn, and after the last
one the block completes. -/
theorem busyOperationEventuallyEnds : Obligations.BusyOperationEventuallyEnds := by
  intro s u hb hrun
  have advance {s t : State} (ht : step s = .next t) := run_succ_eq (M := Sys2Proof.core) ht
  induction ha : s.agenda generalizing s with
  | nil =>
    obtain ⟨t, ht, idle⟩ := step_ends_of_agenda_nil hb ha
    exact ⟨1, t, le_refl 1, advance ht 0, idle⟩
  | cons turn rest ih =>
    rw [ha] at hrun
    obtain ⟨t, ht⟩ : s.goesOn := step_of_run_succ (M := Sys2Proof.core) hrun
    cases hs : t.seq with
    | idle => exact ⟨1, t, by omega, advance ht 0, hs⟩
    | busy =>
      have hrest : t.agenda = rest := by rw [(step_setting ht).2, State.turn, ha]
      rw [advance ht] at hrun
      obtain ⟨k, v, hk, hv, idle⟩ := ih t hs (by rwa [hrest]) hrest
      exact ⟨k + 1, v, Nat.succ_le_succ hk, (advance ht k).trans hv, idle⟩

end Sys2Proof.Machine
end
